-- ==== Sys2Proof/Word.lean ====
section
/-! DEFINITION. The word types of the Z85 codec core: a host register is 32 bits wide (spec/00_scope.md R5,
decision D2), a character code unit and a data byte are 8 bits wide (R5, decision D6). All arithmetic is unsigned
(R6). Bit-field and byte-order helpers stand in Sys2Proof/Machine/Operands.lean. -/

namespace Sys2Proof

/-- One 32-bit host register, command word or block value (R5, R7). -/
abbrev Word := BitVec 32

/-- One 8-bit byte of a payload, or one character code (R5). -/
abbrev Byte := BitVec 8

end Sys2Proof
end

