-- ==== Sys2Proof/Config.lean ====
section
/-! DEFINITION. The implementation parameters of spec/00_scope.md R5. "The spec leaves no parameter OPEN", so this
file holds no free value: every constant below is the value R5's table gives. The two constant tables themselves
stand in Sys2Proof/Machine/Tables.lean. -/

namespace Sys2Proof.Config

/-- The number of characters of the alphabet, and the radix of the code (R5: 85). -/
abbrev alphabetSize : Nat := 85

/-- Bytes in a binary block (R5: 4). -/
abbrev blockBytes : Nat := 4

/-- Characters in a text block (R5: 5). -/
abbrev blockChars : Nat := 5

/-- Words in the register window (R5: 16, word index 0..15). -/
abbrev windowWords : Nat := 16

/-- Entries of the inverse ROM, one for each byte value (R5: 256). -/
abbrev inverseEntries : Nat := 256

/-- The largest padding counter (R5: range 0..3). -/
abbrev counterMax : Nat := 3

end Sys2Proof.Config
end

