-- ==== Sys2Proof/Syntax.lean ====
section
/-! DEFINITION. The commands of the block, one constructor for each row of spec/opcode_table.json
(spec/30_encoding.md R43). A command takes its only operand, IMM8, from the command word (R42); ENC and DEC take
theirs from WORD and TXT0..TXT4. -/

namespace Sys2Proof

/-- A command of the block (R43). `imm` is the unsigned 8-bit operand IMM8 = cmd[15:8] (R42). -/
inductive Instr where
  /-- NOP, opcode 0x0: no operation (spec/43_control.md R68). -/
  | nop
  /-- ENC, opcode 0x1: encode WORD into TXT0..TXT4 (spec/41_block_transform.md R60). -/
  | enc
  /-- DEC, opcode 0x2: decode TXT0..TXT4 into WORD (spec/41_block_transform.md R61). -/
  | dec
  /-- FWD, opcode 0x3: the character of digit `imm` (spec/40_alphabet.md R57). -/
  | fwd (imm : Byte)
  /-- INV, opcode 0x4: the digit of character `imm` (spec/40_alphabet.md R58). -/
  | inv (imm : Byte)
  /-- CNTX, opcode 0x5: the padding counter in the digit character `imm` (spec/42_padding_counter.md R65). -/
  | cntx (imm : Byte)
  /-- CNTG, opcode 0x6: the counter digit for a payload of length `imm` mod 256 (spec/42_padding_counter.md R66). -/
  | cntg (imm : Byte)
  /-- CLRS, opcode 0x7: clear STATUS (spec/43_control.md R69). -/
  | clrs
  deriving DecidableEq, Repr

end Sys2Proof
end

