-- ==== Sys2Proof/Machine/State.lean ====
section
/-! DEFINITION. The state of one instance (spec/10_state.md R11) and, beside it, its host port: the host accesses
still to come, the position in the host's program and the values its reads returned (R18, R50; notes/assumptions/1.md).
The block has no memory, no program counter and no hidden state (R9, R18, R20). All of it is plain data. -/

namespace Sys2Proof.Machine

/-- The STATUS register by its fields (R16): ERR = STATUS[3:0], POS = STATUS[6:4], BYTE = STATUS[15:8],
ANYERR = STATUS[31]. The reserved bits [7] and [30:16] read 0 and nothing writes them, so they are no field
(`Status.toWord` puts the zeros in). -/
structure Status where
  err : BitVec 4
  pos : BitVec 3
  byte : Byte
  anyErr : Bool
  deriving DecidableEq, Repr

/-- The complete architectural state of one instance: the tuple (WORD, TXT0, TXT1, TXT2, TXT3, TXT4, RESULT, STATUS)
of R11, with the widths of R12, R13, R14 and R16. CMD is no storage (R15). -/
structure Block where
  word : Word
  txt0 : Byte
  txt1 : Byte
  txt2 : Byte
  txt3 : Byte
  txt4 : Byte
  result : Byte
  status : Status
  deriving DecidableEq, Repr

/-- The host's two operations on the register window: one whole 32-bit register at a word index 0..15
(spec/20_memory.md R22). -/
inductive Access where
  /-- `RegRead(idx)` (R24). -/
  | read (idx : BitVec 4)
  /-- `RegWrite(idx, v)` (R25). -/
  | write (idx : BitVec 4) (v : Word)
  deriving DecidableEq, Repr

/-- An access shape other than one whole register: the interface cannot express it (spec/20_memory.md R27). -/
inductive OtherShape where
  /-- Fewer than four bytes. -/
  | subWord
  /-- More than four bytes. -/
  | wide
  /-- Four bytes that do not begin at a register. -/
  | misaligned
  deriving DecidableEq, Repr

/-- What reaches one instance from outside: its host's accesses, the external reset (R100), and the three kinds of
access for which the spec says that a model refuses them (R27, R98, R108). -/
inductive Event where
  /-- An access by the instance's one host, with no reset being applied. -/
  | access (a : Access)
  /-- The external reset event (spec/70_reset_and_hazards.md R100). -/
  | reset
  /-- An access that is not one whole 32-bit register (spec/20_memory.md R27). -/
  | otherShape (shape : OtherShape)
  /-- An access by a second host on the same instance (spec/60_exceptions.md R98). -/
  | secondHost (a : Access)
  /-- An access issued while reset is being applied (spec/70_reset_and_hazards.md R108). -/
  | duringReset (a : Access)
  deriving DecidableEq, Repr

/-- The machine: the block's registers, and the port at which its host drives it. `pending` holds what the outside
world does next, oldest first; `position` is the host program's natural-number index, one more for each access (R18);
`reads` holds the values RegRead has returned, oldest first (R50). -/
structure State where
  block : Block
  pending : List Event
  position : Nat
  reads : List Word
  deriving DecidableEq, Repr

/-- No event of this machine is a fault: "The block has no trap mechanism" (spec/60_exceptions.md R93), "No access
raises an error" (D4), and every command word has a defined result (spec/30_encoding.md R47). -/
inductive Fault where
  deriving DecidableEq, Repr

/-- Why the model gives an event no meaning. -/
inductive Refusal where
  /-- Raised by `exec`'s arm of a command that has no meaning yet (no arm is so). Safe: the machine stops. -/
  | notModelled (mnemonic : String)
  /-- Raised by `serve` on an access that is not one whole 32-bit register: "A model offered such an access refuses
  it" (spec/20_memory.md R27). Safe: the machine stops. -/
  | otherAccessShape (shape : OtherShape)
  /-- Raised by `serve` on an access of a second host: "outside this spec, and a model refuses it"
  (spec/60_exceptions.md R98). Safe: the machine stops. -/
  | sharedInstance
  /-- Raised by `serve` on an access while reset is applied: "no defined effect in this spec, and a model refuses it"
  (spec/70_reset_and_hazards.md R108). Safe: the machine stops. -/
  | accessDuringReset
  deriving DecidableEq, Repr

/-- STATUS after reset: 0x00000000 (R16, R100). -/
def Status.reset : Status := ⟨0#4, 0#3, 0x00#8, false⟩

/-- The registers after reset (spec/70_reset_and_hazards.md R100): every one is given there. -/
def Block.reset : Block := ⟨0x00000000#32, 0x00#8, 0x00#8, 0x00#8, 0x00#8, 0x00#8, 0x00#8, Status.reset⟩

/-- The machine right after reset: the registers as R100 says, and a host that has not yet issued anything. -/
def State.reset : State := ⟨Block.reset, [], 0, []⟩

end Sys2Proof.Machine
end

