-- ==== Sys2Proof/Machine/Flags.lean ====
section
/-! DEFINITION. STATUS, the block's only condition state (spec/10_state.md R16, R19): the error codes
(spec/60_exceptions.md R88), what a successful and a failing command write to it (R90), what CLRS writes to it
(spec/43_control.md R69), and the word a host reads (spec/20_memory.md R24). -/

namespace Sys2Proof.Machine

/-- The names of spec/60_exceptions.md R88's taxonomy. The two stream-level names are raised by no command. -/
inductive ErrorName where
  /-- No error: every successful command. -/
  | none
  /-- Stream level only: a length that fails the mode's block alignment. -/
  | invalidLength
  /-- DEC, INV and the stream decoders: a byte that is no alphabet character. -/
  | invalidCharacter
  /-- CNTX and the padded stream decoders: a counter that is absent or not '0'..'3'. -/
  | invalidCounter
  /-- Stream level only: a counter larger than the number of decoded bytes. -/
  | invalidPadding
  /-- Any write of a word to CMD that is no legal command. -/
  | illegalCommand
  deriving DecidableEq, Repr

/-- The STATUS.ERR code of an error name; 6..15 are never written (spec/60_exceptions.md R88). -/
def ErrorName.code : ErrorName → BitVec 4
  | .none => 0#4
  | .invalidLength => 1#4
  | .invalidCharacter => 2#4
  | .invalidCounter => 3#4
  | .invalidPadding => 4#4
  | .illegalCommand => 5#4

/-- STATUS after a successful command: ERR, POS and BYTE are 0, ANYERR is kept (R90; `ok()` of R9). -/
def Status.succeed (st : Status) : Status := ⟨ErrorName.none.code, 0#3, 0x00#8, st.anyErr⟩

/-- STATUS after a failing command: the code, the position or sub-cause, the byte, and ANYERR = 1 (R90; `raise` of
R9). It depends on no earlier STATUS. -/
def Status.failed (e : ErrorName) (pos : BitVec 3) (byte : Byte) : Status := ⟨e.code, pos, byte, true⟩

/-- STATUS after CLRS: every field 0, ANYERR among them (spec/43_control.md R69). -/
def Status.cleared : Status := ⟨0#4, 0#3, 0x00#8, false⟩

/-- ANYERR as one bit. -/
def Status.anyErrBit (st : Status) : BitVec 1 := if st.anyErr then 1#1 else 0#1

/-- The word RegRead(1) returns: {ANYERR, 15'b0, BYTE, 1'b0, POS, ERR} (R16, spec/20_memory.md R24). -/
def Status.toWord (st : Status) : Word :=
  st.anyErrBit ++ 0#15 ++ st.byte ++ 0#1 ++ st.pos ++ st.err

/-- STATUS[3:0] of a word a host has read (R16). -/
def statusErr (v : Word) : BitVec 4 := v.extractLsb' 0 4

/-- STATUS[6:4] of a word a host has read (R16). -/
def statusPos (v : Word) : BitVec 3 := v.extractLsb' 4 3

/-- STATUS[15:8] of a word a host has read (R16). -/
def statusByte (v : Word) : Byte := v.extractLsb' 8 8

/-- STATUS[31] of a word a host has read (R16). -/
def statusAnyErr (v : Word) : Bool := v.getLsbD 31

end Sys2Proof.Machine
end

