-- ==== Sys2Proof/Machine/Tables.lean ====
section
/-! DEFINITION. The two constant tables (spec/10_state.md R17, spec/40_alphabet.md R52 to R56). They are parameters
of the step, not state (R11): no step, access or reset changes them (spec/20_memory.md R29), and only commands read
them (R28). -/

namespace Sys2Proof.Machine

/-- FWD_ROM's 85 entries in index order: the ASCII codes of R52's table (the codes are the spec's, marked there as
general knowledge G1). -/
def fwdRomEntries : List Byte :=
  -- 0..9: '0'..'9'
  [0x30#8, 0x31#8, 0x32#8, 0x33#8, 0x34#8, 0x35#8, 0x36#8, 0x37#8, 0x38#8, 0x39#8] ++
  -- 10..35: 'a'..'z'
  [0x61#8, 0x62#8, 0x63#8, 0x64#8, 0x65#8, 0x66#8, 0x67#8, 0x68#8, 0x69#8, 0x6A#8, 0x6B#8, 0x6C#8, 0x6D#8] ++
  [0x6E#8, 0x6F#8, 0x70#8, 0x71#8, 0x72#8, 0x73#8, 0x74#8, 0x75#8, 0x76#8, 0x77#8, 0x78#8, 0x79#8, 0x7A#8] ++
  -- 36..61: 'A'..'Z'
  [0x41#8, 0x42#8, 0x43#8, 0x44#8, 0x45#8, 0x46#8, 0x47#8, 0x48#8, 0x49#8, 0x4A#8, 0x4B#8, 0x4C#8, 0x4D#8] ++
  [0x4E#8, 0x4F#8, 0x50#8, 0x51#8, 0x52#8, 0x53#8, 0x54#8, 0x55#8, 0x56#8, 0x57#8, 0x58#8, 0x59#8, 0x5A#8] ++
  -- 62..84: the 23 punctuation characters  . - : + = ^ ! / * ? & < > ( ) [ ] { } @ % $ #
  [0x2E#8, 0x2D#8, 0x3A#8, 0x2B#8, 0x3D#8, 0x5E#8, 0x21#8, 0x2F#8, 0x2A#8, 0x3F#8, 0x26#8, 0x3C#8] ++
  [0x3E#8, 0x28#8, 0x29#8, 0x5B#8, 0x5D#8, 0x7B#8, 0x7D#8, 0x40#8, 0x25#8, 0x24#8, 0x23#8]

/-- FWD_ROM has 85 entries (R52). -/
theorem fwdRomEntries_length : fwdRomEntries.length = Config.alphabetSize := rfl

/-- FWD_ROM[i] for a digit i in 0..84 (R52). An index above 84 cannot be given: "A read of FWD_ROM with an index above
84 never happens" (spec/20_memory.md R28). -/
def fwdRom (i : Fin Config.alphabetSize) : Byte := fwdRomEntries.get (i.cast fwdRomEntries_length.symm)

/-- One entry of INV_ROM: (valid: 1 bit, value: 7 bits) (R17, R54). -/
structure InvEntry where
  valid : Bool
  value : BitVec 7
  deriving DecidableEq, Repr

/-- INV_ROM[c]: (1, i) if c = FWD_ROM[i], else (0, 0) (R54). The policy is strict: exactly the 85 alphabet codes are
valid (R55). -/
def invRom (c : Byte) : InvEntry :=
  match fwdRomEntries.findIdx? (fun a => a == c) with
  | some i => ⟨true, BitVec.ofNat 7 i⟩
  | none => ⟨false, 0#7⟩

/-- c is an alphabet character (R55). -/
def inAlphabet (c : Byte) : Bool := (invRom c).valid

end Sys2Proof.Machine
end

