-- ==== Sys2Proof/Machine/Operands.lean ====
section
/-! DEFINITION. How a command reads its operand (spec/30_encoding.md R42), the byte order of a block
(spec/00_scope.md R7, spec/20_memory.md R30, R31), the base-85 digits of a block value and the value of a text block
(spec/41_block_transform.md R59). -/

namespace Sys2Proof.Machine

/-- be32(b0, b1, b2, b3): the first byte is the most significant (R7, R30). -/
def be32 (b0 b1 b2 b3 : Byte) : Word := b0 ++ b1 ++ b2 ++ b3

/-- bytes_be(w): the four bytes, the first the most significant (R7). -/
def bytesBe (w : Word) : List Byte :=
  [w.extractLsb' 24 8, w.extractLsb' 16 8, w.extractLsb' 8 8, w.extractLsb' 0 8]

/-- zext_32 of an 8-bit register (R6). -/
def zext32 (b : Byte) : Word := b.setWidth 32

/-- v[7:0] of a written word (R25). -/
def lowByte (v : Word) : Byte := v.extractLsb' 0 8

/-- CNTG's m = IMM8[1:0], the payload length mod 4; IMM8[7:2] is ignored (R42). -/
def lengthResidue (imm : Byte) : BitVec 2 := imm.extractLsb' 0 2

/-- The five character indices 0..4 in order. -/
def charIndices : List (Fin Config.blockChars) := [0, 1, 2, 3, 4]

/-- 85^(4-k), the weight of character k (R59, R32). -/
def weight (k : Fin Config.blockChars) : Nat := Config.alphabetSize ^ (4 - k.val)

/-- digit_k(w) = (w div 85^(4-k)) mod 85 (R59). -/
def digit (w : Word) (k : Fin Config.blockChars) : Fin Config.alphabetSize :=
  ⟨w.toNat / weight k % Config.alphabetSize, Nat.mod_lt _ (by decide)⟩

/-- The digit value v_k of a character, read from INV_ROM (R59; meaningful where the entry is valid). -/
def charValue (c : Byte) : Nat := (invRom c).value.toNat

/-- The least index of a character that is not in the alphabet, if there is one (R61). -/
def firstInvalid (t : Fin Config.blockChars → Byte) : Option (Fin Config.blockChars) :=
  charIndices.find? (fun k => !(invRom (t k)).valid)

/-- The text value tv = Σ v_k · 85^(4-k) of a text block (R59). -/
def textValue (t : Fin Config.blockChars → Byte) : Nat :=
  charValue (t 0) * weight 0 + charValue (t 1) * weight 1 + charValue (t 2) * weight 2
    + charValue (t 3) * weight 3 + charValue (t 4) * weight 4

/-- DEC's 32-bit accumulator over the characters in order: acc = (acc * 85 + v_k) mod 2^32 (R61, decision D8). -/
def decodeAccumulate (t : Fin Config.blockChars → Byte) : Word :=
  charIndices.foldl (fun acc k => acc * 85#32 + (invRom (t k)).value.setWidth 32) 0#32

end Sys2Proof.Machine
end

