-- ==== Sys2Proof/Machine/Ops.lean ====
section
/-! DEFINITION. The named operations over the registers (spec/00_scope.md R9): reading TXT by index, writing WORD, TXT,
RESULT and STATUS, `ok()` and `raise`. `raise` is the block's whole exception entry: it writes STATUS and ends the
command (spec/60_exceptions.md R90). There is no trap, no saved state and no return (R93, R94): after an error the block
accepts the next access at once. -/

namespace Sys2Proof.Machine

/-- TXT[k] (R9, R13). -/
def Block.txt (b : Block) (k : Fin Config.blockChars) : Byte :=
  match k with
  | 0 => b.txt0
  | 1 => b.txt1
  | 2 => b.txt2
  | 3 => b.txt3
  | 4 => b.txt4

/-- WORD <- v (R9, R12). -/
def State.setWord (s : State) (v : Word) : State := { s with block := { s.block with word := v } }

/-- RESULT <- v (R9, R14). -/
def State.setResult (s : State) (v : Byte) : State := { s with block := { s.block with result := v } }

/-- STATUS <- st (R9, R16). -/
def State.setStatus (s : State) (st : Status) : State := { s with block := { s.block with status := st } }

/-- TXT[k] <- t k for every k in 0..4 (R9, R13). -/
def State.setText (s : State) (t : Fin Config.blockChars → Byte) : State :=
  { s with block := { s.block with txt0 := t 0, txt1 := t 1, txt2 := t 2, txt3 := t 3, txt4 := t 4 } }

/-- TXT[k] <- v for one k; the other four characters stay (R9, R13). -/
def State.setTxt (s : State) (k : Fin Config.blockChars) (v : Byte) : State :=
  s.setText (fun j => if j = k then v else s.block.txt j)

/-- `ok()`: ERR, POS and BYTE are written 0, ANYERR is kept, and the command ends (R9, R90). -/
def ok (s : State) : Host.Outcome State Fault Refusal := .next (s.setStatus s.block.status.succeed)

/-- `raise <e>(POS, BYTE)`: STATUS records the error, ANYERR is set, and the command ends with no other write
(R9, R90, R91). -/
def raise (e : ErrorName) (pos : BitVec 3) (byte : Byte) (s : State) : Host.Outcome State Fault Refusal :=
  .next (s.setStatus (Status.failed e pos byte))

/-- The host program's index advances by one for each access (R18). -/
def State.advance (s : State) : State := { s with position := s.position + 1 }

/-- The host's program records the value of a RegRead (spec/30_encoding.md R50). -/
def State.record (s : State) (v : Word) : State := { s with reads := s.reads ++ [v] }

/-- The reset event sets every register of the instance to its reset value; the host's position is its own
(spec/70_reset_and_hazards.md R100, R18). -/
def State.applyReset (s : State) : State := { s with block := Block.reset }

end Sys2Proof.Machine
end

