-- ==== Sys2Proof/Machine/Alphabet.lean ====
section
/-! DEFINITION. The alphabet lookups FWD and INV (spec/40_alphabet.md R57, R58). -/

namespace Sys2Proof.Machine

/-- FWD: RESULT <- FWD_ROM[IMM8]; an index of 85 or more is IllegalCommand sub-cause 3 with BYTE = IMM8 and leaves
RESULT unchanged (R57). The decoder makes the same check first (spec/30_encoding.md R46, R48). -/
def execFwd (imm : Byte) (s : State) : Host.Outcome State Fault Refusal :=
  if h : imm.toNat < Config.alphabetSize then ok (s.setResult (fwdRom ⟨imm.toNat, h⟩))
  else raise .illegalCommand 3#3 imm s

/-- INV: RESULT <- zext_8(value) for an alphabet code, else InvalidCharacter with POS = 0 and BYTE = IMM8 (R58). -/
def execInv (imm : Byte) (s : State) : Host.Outcome State Fault Refusal :=
  if (invRom imm).valid then ok (s.setResult ((invRom imm).value.setWidth 8))
  else raise .invalidCharacter 0#3 imm s

end Sys2Proof.Machine
end

