-- ==== Sys2Proof/WellFormed.lean ====
section
/-! DEFINITION. The commands that some legal command word stands for (spec/30_encoding.md R47: 857 of them). The
one check that the types do not make: FWD's operand is a digit index, "legal when i ≤ 84" (R42). -/

namespace Sys2Proof

/-- Whether the command is one of R47's 857 legal ones: every operand is legal but a FWD index of 85 or more
(R42, R46). -/
def Instr.wellFormed : Instr → Bool
  | .nop => true
  | .enc => true
  | .dec => true
  | .fwd imm => decide (imm.toNat < Config.alphabetSize)
  | .inv _ => true
  | .cntx _ => true
  | .cntg _ => true
  | .clrs => true

end Sys2Proof
end

