-- ==== Sys2Proof/Decode.lean ====
section
/-! DEFINITION. The command word of spec/30_encoding.md: its fields (R41), the decoding procedure with its checks in
order (R48), total on every 32-bit word, the encoder (R49), and the opcode map's match and mask rows (R43). A word
that is no legal command decodes to a named cause (R44, R45, R46), never to a neighbour. -/

namespace Sys2Proof

/-- The OP field, cmd[3:0] (R41). -/
def opField (cmd : Word) : BitVec 4 := cmd.extractLsb' 0 4

/-- The reserved field RSV0, cmd[7:4], which must be 0 (R41). -/
def rsv0Field (cmd : Word) : BitVec 4 := cmd.extractLsb' 4 4

/-- The operand field IMM8, cmd[15:8], unsigned and unscaled (R41, R42). -/
def imm8Field (cmd : Word) : Byte := cmd.extractLsb' 8 8

/-- The reserved field RSV1, cmd[31:16], which must be 0 (R41). -/
def rsv1Field (cmd : Word) : BitVec 16 := cmd.extractLsb' 16 16

/-- cmd[7:0], the detail of the two word-level rejections (R44, R45). -/
def lowByteField (cmd : Word) : Byte := cmd.extractLsb' 0 8

/-- Why a command word is an IllegalCommand, in the order of R48's checks (spec/43_control.md R70). -/
inductive IllegalCause where
  /-- Sub-cause 0: a reserved opcode 0x8..0xF (R44). -/
  | reservedOpcode
  /-- Sub-cause 1: RSV0 or RSV1 nonzero (R45). -/
  | reservedBits
  /-- Sub-cause 2: IMM8 nonzero on NOP, ENC, DEC or CLRS (R46). -/
  | operandNotAllowed
  /-- Sub-cause 3: FWD with IMM8 of 85 or more (R46). -/
  | operandOutOfRange
  deriving DecidableEq, Repr

/-- What a command word decodes to: one legal command, or an IllegalCommand with its cause (R47, R48). -/
inductive Decoded where
  | legal (i : Instr)
  | illegal (cause : IllegalCause)
  deriving DecidableEq, Repr

/-- The opcodes that take no operand: NOP, ENC, DEC and CLRS (R41, R46). -/
def takesNoOperand (op : BitVec 4) : Bool :=
  op == 0x0#4 || op == 0x1#4 || op == 0x2#4 || op == 0x7#4

/-- R48's `case op of`: the command of an opcode below 0x8 whose checks have passed. The last line answers for
the opcodes 0x8..0xF, which the first check has already rejected. -/
def commandOf (op : BitVec 4) (imm : Byte) : Decoded :=
  match op.toNat with
  | 0 => .legal .nop
  | 1 => .legal .enc
  | 2 => .legal .dec
  | 3 => .legal (.fwd imm)
  | 4 => .legal (.inv imm)
  | 5 => .legal (.cntx imm)
  | 6 => .legal (.cntg imm)
  | 7 => .legal .clrs
  | _ => .illegal .reservedOpcode

/-- The decoding procedure of R48: the first check that fails decides the result (R92). -/
def decode (cmd : Word) : Decoded :=
  if 8 ≤ (opField cmd).toNat then .illegal .reservedOpcode
  else if rsv0Field cmd ≠ 0#4 ∨ rsv1Field cmd ≠ 0#16 then .illegal .reservedBits
  else if takesNoOperand (opField cmd) = true ∧ imm8Field cmd ≠ 0#8 then .illegal .operandNotAllowed
  else if opField cmd = 0x3#4 ∧ Config.alphabetSize ≤ (imm8Field cmd).toNat then .illegal .operandOutOfRange
  else commandOf (opField cmd) (imm8Field cmd)

/-- The sub-cause that STATUS.POS records for a rejected word (spec/43_control.md R70). -/
def IllegalCause.subcause : IllegalCause → BitVec 3
  | .reservedOpcode => 0#3
  | .reservedBits => 1#3
  | .operandNotAllowed => 2#3
  | .operandOutOfRange => 3#3

/-- The byte that STATUS.BYTE records for a rejected word: cmd[7:0] for the word-level rejections, IMM8 for the
operand ones (spec/43_control.md R70). -/
def IllegalCause.detail (cmd : Word) : IllegalCause → Byte
  | .reservedOpcode => lowByteField cmd
  | .reservedBits => lowByteField cmd
  | .operandNotAllowed => imm8Field cmd
  | .operandOutOfRange => imm8Field cmd

/-- The opcode of a command (R43). -/
def Instr.opcode : Instr → BitVec 4
  | .nop => 0x0#4
  | .enc => 0x1#4
  | .dec => 0x2#4
  | .fwd _ => 0x3#4
  | .inv _ => 0x4#4
  | .cntx _ => 0x5#4
  | .cntg _ => 0x6#4
  | .clrs => 0x7#4

/-- The operand of a command, 0 where it takes none (R41). -/
def Instr.imm8 : Instr → Byte
  | .nop => 0#8
  | .enc => 0#8
  | .dec => 0#8
  | .fwd imm => imm
  | .inv imm => imm
  | .cntx imm => imm
  | .cntg imm => imm
  | .clrs => 0#8

/-- The command word of a command, R49's `enc(m, imm) = OP(m) | (imm << 8)` written as R41's pattern string: 16
zeros, IMM8, 4 zeros, OP. -/
def encode (i : Instr) : Word := 0#16 ++ i.imm8 ++ 0#4 ++ i.opcode

/-- One row of R43's opcode map: "A word matches a row when (cmd & mask) = match". -/
structure OpcodeRow where
  matchBits : Word
  mask : Word
  deriving DecidableEq, Repr

/-- The row's match test (R43). -/
def OpcodeRow.matchesWord (r : OpcodeRow) (cmd : Word) : Bool := (cmd &&& r.mask) == r.matchBits

/-- R43's eight rows, in opcode order. -/
def opcodeRows : List OpcodeRow :=
  [ ⟨0x00000000#32, 0xFFFFFFFF#32⟩, ⟨0x00000001#32, 0xFFFFFFFF#32⟩,
    ⟨0x00000002#32, 0xFFFFFFFF#32⟩, ⟨0x00000003#32, 0xFFFF00FF#32⟩,
    ⟨0x00000004#32, 0xFFFF00FF#32⟩, ⟨0x00000005#32, 0xFFFF00FF#32⟩,
    ⟨0x00000006#32, 0xFFFF00FF#32⟩, ⟨0x00000007#32, 0xFFFFFFFF#32⟩ ]

/-- The command word that a number of `nbits` bits writes: the block has one command length, 32 bits (R40), and
every bit above `nbits` is 0. -/
def tableWord (nbits w : Nat) : Word := BitVec.ofNat 32 (w % 2 ^ nbits)

/-- The command the decoder reads from the word of an opcode-table row; none for an IllegalCommand. -/
def decodeTableWord (nbits w : Nat) : Option Instr :=
  match decode (tableWord nbits w) with
  | .legal i => some i
  | .illegal _ => none

end Sys2Proof
end

