-- ==== Sys2Proof/Machine/Control.lean ====
section
/-! DEFINITION. The control commands NOP and CLRS, and the illegal command (spec/43_control.md R68, R69, R70). -/

namespace Sys2Proof.Machine

/-- NOP: `ok()` alone, so ERR, POS and BYTE are cleared and ANYERR is kept (R68). -/
def execNop (s : State) : Host.Outcome State Fault Refusal := ok s

/-- CLRS: STATUS <- 0x00000000, ANYERR too (R69). -/
def execClrs (s : State) : Host.Outcome State Fault Refusal := .next (s.setStatus Status.cleared)

/-- An illegal command word: IllegalCommand with the sub-cause and detail of the rejecting rule; no part of the
command the word resembles is executed (R70). -/
def execIllegal (cause : IllegalCause) (cmd : Word) (s : State) : Host.Outcome State Fault Refusal :=
  raise .illegalCommand cause.subcause (cause.detail cmd) s

end Sys2Proof.Machine
end

