-- ==== Sys2Proof/Machine/Counter.lean ====
section
/-! DEFINITION. The padding counter CNTX and CNTG (spec/42_padding_counter.md R65, R66). -/

namespace Sys2Proof.Machine

/-- The code of the digit character '0', which a counter is offset by (R64). -/
def counterBase : Byte := 0x30#8

/-- c is one of '0'..'3', the codes 0x30..0x33 (R64, R65). -/
def isCounterDigit (c : Byte) : Bool := decide (0x30 ≤ c.toNat ∧ c.toNat ≤ 0x33)

/-- The counter of a payload whose length is m modulo 4: (4 - m) mod 4 (R66). -/
def paddingOf (m : BitVec 2) : Nat := (4 - m.toNat) % 4

/-- CNTX: RESULT <- c - 0x30 for c in 0x30..0x33, else InvalidCounter with POS = 0 and BYTE = c (R65). -/
def execCntx (imm : Byte) (s : State) : Host.Outcome State Fault Refusal :=
  if isCounterDigit imm then ok (s.setResult (imm - counterBase))
  else raise .invalidCounter 0#3 imm s

/-- CNTG: RESULT <- 0x30 + (4 - IMM8[1:0]) mod 4; every IMM8 is legal (R66). -/
def execCntg (imm : Byte) (s : State) : Host.Outcome State Fault Refusal :=
  ok (s.setResult (counterBase + BitVec.ofNat 8 (paddingOf (lengthResidue imm))))

end Sys2Proof.Machine
end

