-- ==== Sys2Proof/Machine/Transform.lean ====
section
/-! DEFINITION. The block transform ENC and DEC (spec/41_block_transform.md R60, R61). -/

namespace Sys2Proof.Machine

/-- ENC: TXT[k] <- FWD_ROM[digit_k(WORD)] for k in 0..4; WORD is not changed, and no error is possible (R60). -/
def execEnc (s : State) : Host.Outcome State Fault Refusal :=
  ok (s.setText (fun k => fwdRom (digit s.block.word k)))

/-- DEC: the lowest-index character that is not in the alphabet raises InvalidCharacter with its index and code and
leaves WORD unchanged; else WORD <- the 32-bit accumulation of the digits, which wraps (R61, R63). -/
def execDec (s : State) : Host.Outcome State Fault Refusal :=
  match firstInvalid s.block.txt with
  | some j => raise .invalidCharacter (BitVec.ofNat 3 j.val) (s.block.txt j) s
  | none => ok (s.setWord (decodeAccumulate s.block.txt))

end Sys2Proof.Machine
end

