-- ==== Sys2Proof/Machine/Dispatch.lean ====
section
/-! DEFINITION. One arm for each command (spec/30_encoding.md R48's `case op of`). -/

namespace Sys2Proof.Machine

def exec (i : Instr) (s : State) : Host.Outcome State Fault Refusal :=
  match i with
  | .nop => Sys2Proof.Machine.execNop s
  | .enc => Sys2Proof.Machine.execEnc s
  | .dec => Sys2Proof.Machine.execDec s
  | .fwd imm => Sys2Proof.Machine.execFwd imm s
  | .inv imm => Sys2Proof.Machine.execInv imm s
  | .cntx imm => Sys2Proof.Machine.execCntx imm s
  | .cntg imm => Sys2Proof.Machine.execCntg imm s
  | .clrs => Sys2Proof.Machine.execClrs s

end Sys2Proof.Machine
end

