-- ==== Sys2Proof/Machine/Window.lean ====
section
/-! DEFINITION. The register window (spec/20_memory.md R22 to R27): RegRead, RegWrite, the command a write to CMD
executes (spec/30_encoding.md R48), and how one event from outside is served. -/

namespace Sys2Proof.Machine

/-- The registers a host program names (R23; spec/30_encoding.md R50). -/
inductive Reg where
  | cmd
  | status
  | word
  | result
  | txt (k : Fin Config.blockChars)
  deriving DecidableEq, Repr

/-- The word index of a named register (R23). -/
def Reg.idx : Reg → BitVec 4
  | .cmd => 0#4
  | .status => 1#4
  | .word => 2#4
  | .result => 3#4
  | .txt 0 => 4#4
  | .txt 1 => 5#4
  | .txt 2 => 6#4
  | .txt 3 => 7#4
  | .txt 4 => 8#4

/-- RegRead(idx): the value read; a read changes no register. CMD and the unmapped indices 9..15 read 0 (R24, R26). -/
def regRead (idx : BitVec 4) (b : Block) : Word :=
  match idx.toNat with
  | 1 => b.status.toWord
  | 2 => b.word
  | 3 => zext32 b.result
  | 4 => zext32 b.txt0
  | 5 => zext32 b.txt1
  | 6 => zext32 b.txt2
  | 7 => zext32 b.txt3
  | 8 => zext32 b.txt4
  | _ => 0x00000000#32

/-- A write of `cmd` to CMD: the command it encodes is decoded and executed as one atomic step
(spec/10_state.md R15, spec/30_encoding.md R48). -/
def command (cmd : Word) (s : State) : Host.Outcome State Fault Refusal :=
  match decode cmd with
  | .legal i => exec i s
  | .illegal cause => execIllegal cause cmd s

/-- RegWrite(idx, v): WORD takes the whole word, TXTk its bits [7:0], CMD executes, and every other index ignores the
write (R25, R26). -/
def regWrite (idx : BitVec 4) (v : Word) (s : State) : Host.Outcome State Fault Refusal :=
  match idx.toNat with
  | 0 => command v s
  | 2 => .next (s.setWord v)
  | 4 => .next (s.setTxt 0 (lowByte v))
  | 5 => .next (s.setTxt 1 (lowByte v))
  | 6 => .next (s.setTxt 2 (lowByte v))
  | 7 => .next (s.setTxt 3 (lowByte v))
  | 8 => .next (s.setTxt 4 (lowByte v))
  | _ => .next s

/-- One host access, complete in one step (R33, R35): the program's position moves on by one (R18), a read's value is
recorded (R50), and a write has its effect. -/
def serveAccess (a : Access) (s : State) : Host.Outcome State Fault Refusal :=
  match a with
  | .read idx => .next (s.record (regRead idx s.block)).advance
  | .write idx v => regWrite idx v s.advance

/-- One event from outside: an access, the reset, or one of the accesses for which the spec says that a model refuses
them (R27, spec/60_exceptions.md R98, spec/70_reset_and_hazards.md R108). -/
def serve (e : Event) (s : State) : Host.Outcome State Fault Refusal :=
  match e with
  | .access a => serveAccess a s
  | .reset => .next s.applyReset
  | .otherShape shape => .refused (.otherAccessShape shape)
  | .secondHost _ => .refused .sharedInstance
  | .duringReset _ => .refused .accessDuringReset

/-- The byte offset of a register in a platform's byte-addressed map: 4·idx (R22, R23). -/
def byteOffset (idx : BitVec 4) : Nat := 4 * idx.toNat

/-- The word index a platform decodes from a byte offset: offset bits [5:2] (R22). -/
def indexOfOffset (offset : Nat) : BitVec 4 := (BitVec.ofNat 6 offset).extractLsb' 2 4

/-- What a platform's byte-addressed access of `bytes` bytes at `offset` (a store of `v`, or a load) presents to the
block: one whole aligned word is the access of its register, any other shape is one the interface cannot carry
(R22, R27, decision D3). -/
def busEvent (offset bytes : Nat) (store : Option Word) : Event :=
  if bytes < 4 then .otherShape .subWord
  else if 4 < bytes then .otherShape .wide
  else if offset % 4 ≠ 0 then .otherShape .misaligned
  else match store with
    | some v => .access (.write (indexOfOffset offset) v)
    | none => .access (.read (indexOfOffset offset))

end Sys2Proof.Machine
end

