-- ==== Sys2Proof/Machine/Step.lean ====
section
/-! DEFINITION. One step of the machine: the oldest pending event is served, whole (spec/20_memory.md R33, R35;
spec/70_reset_and_hazards.md R104, R107). The block fetches nothing (R38): a command is the value the host writes to
CMD, so the "next instruction" is the next pending access (notes/assumptions/1.md, notes/assumptions/2.md). -/

namespace Sys2Proof.Machine

/-- One step. With no event pending the block "is idle, with all state retained" (spec/60_exceptions.md R99). -/
def step (s : State) : Host.Outcome State Fault Refusal :=
  match s.pending with
  | [] => .next s
  | e :: rest => serve e { s with pending := rest }

/-- The machine whose host issues the write of this command word to CMD next (spec/30_encoding.md R40: "Writing the
word is issuing it"). -/
def State.withFetchWord (s : State) (nbits w : Nat) : State :=
  { s with pending := .access (.write 0#4 (tableWord nbits w)) :: s.pending }

end Sys2Proof.Machine
end

