-- ==== Sys2Proof/Machine/Assembler.lean ====
section
/-! DEFINITION. The assembler syntax of spec/30_encoding.md R49, R50 and R51: a command, a host-program line and the
pseudo-instructions, from characters to the accesses they stand for. It has no effect on the machine (decision D25).
What the rules leave open of the concrete text is fixed in notes/assumptions/4.md, 13.md and 14.md. -/

namespace Sys2Proof.Machine

/-- A piece of a line: a name or number, a quoted character `'c'`, a quoted string, or a comma. -/
inductive Token where
  | name (cs : List Char)
  | chr (c : Byte)
  | text (cs : List Byte)
  | comma
  deriving DecidableEq, Repr

/-- Where the reader of a line stands: outside quotes with the letters of a name read so far, after `'`, after `'c`,
or inside a string. -/
inductive LexMode where
  | plain (letters : List Char)
  | charOpen
  | charClose (c : Byte)
  | inString (chars : List Byte)
  deriving DecidableEq, Repr

/-- The ASCII code of a character, for the 7-bit characters ASCII has (R49, decision D6). -/
def asciiCode (c : Char) : Option Byte :=
  if c.toNat < 128 then some (BitVec.ofNat 8 c.toNat) else none

/-- The finished name, if any letters were read, before the tokens that follow. -/
def finishName (letters : List Char) (tokens : List Token) : List Token :=
  if letters.isEmpty then tokens else .name letters :: tokens

/-- The single quote. -/
def singleQuote : Char := Char.ofNat 39

/-- The double quote. -/
def doubleQuote : Char := Char.ofNat 34

/-- The tokens of a line. Spaces separate names, `//` outside quotes begins a comment (R50); none if a quote is not
closed or a quoted character is not ASCII. DESIGN CHOICE (log entry 13): R51 gives a string no escape, so the first double
quote ends it and a text with a double quote among its five characters is rejected; `WR TXTk` with the double quote as a
quoted character writes it. A quoted character may be any ASCII character, either quote among them. Safe: no effect on the
machine (D25). -/
def lexLine : LexMode → List Char → Option (List Token)
  | .plain letters, [] => some (finishName letters [])
  | .plain letters, c :: rest =>
    if c = '/' ∧ rest.head? = some '/' then some (finishName letters [])
    else if c = ' ' then (lexLine (.plain []) rest).map (finishName letters)
    else if c = ',' then (lexLine (.plain []) rest).map (fun ts => finishName letters (.comma :: ts))
    else if c = singleQuote then (lexLine .charOpen rest).map (finishName letters)
    else if c = doubleQuote then (lexLine (.inString []) rest).map (finishName letters)
    else lexLine (.plain (letters ++ [c])) rest
  | .charOpen, [] => none
  | .charOpen, c :: rest => (asciiCode c).bind (fun b => lexLine (.charClose b) rest)
  | .charClose _, [] => none
  | .charClose b, c :: rest =>
    if c = singleQuote then (lexLine (.plain []) rest).map (fun ts => .chr b :: ts) else none
  | .inString _, [] => none
  | .inString chars, c :: rest =>
    if c = doubleQuote then (lexLine (.plain []) rest).map (fun ts => .text chars :: ts)
    else (asciiCode c).bind (fun b => lexLine (.inString (chars ++ [b])) rest)

/-- The value of a digit character in a radix of at most 16. -/
def digitValue (radix : Nat) (c : Char) : Option Nat :=
  let n := c.toNat
  let v := if 48 ≤ n ∧ n ≤ 57 then some (n - 48)
    else if 65 ≤ n ∧ n ≤ 70 then some (n - 55)
    else if 97 ≤ n ∧ n ≤ 102 then some (n - 87)
    else none
  v.bind (fun d => if d < radix then some d else none)

/-- The number a list of digits stands for, after the digits already read. -/
def digitsValue (radix : Nat) : Nat → List Char → Option Nat
  | acc, [] => some acc
  | acc, c :: rest => (digitValue radix c).bind (fun d => digitsValue radix (acc * radix + d) rest)

/-- A number, decimal or `0x` hexadecimal (R49). -/
def numberOf : List Char → Option Nat
  | [] => none
  | '0' :: 'x' :: [] => none
  | '0' :: 'x' :: ds => digitsValue 16 0 ds
  | ds => digitsValue 10 0 ds

/-- The value of an operand: a number, or the code of a quoted character (R49, R50). -/
def operandOf : Token → Option Nat
  | .name cs => numberOf cs
  | .chr c => some c.toNat
  | .text _ => none
  | .comma => none

/-- An operand of 8 bits: one outside 0..255 is rejected (R49). -/
def byteOperandOf (t : Token) : Option Byte :=
  (operandOf t).bind (fun n => if n < 256 then some (BitVec.ofNat 8 n) else none)

/-- A 32-bit value, a number or a quoted character (R50); its base is decimal or `0x` hexadecimal, and a number of 2^32 or
more is rejected (log entry 14, DESIGN CHOICE). -/
def wordOperandOf (t : Token) : Option Word :=
  (operandOf t).bind (fun n => if n < 2 ^ 32 then some (BitVec.ofNat 32 n) else none)

/-- The words a line can begin with: the mnemonics (R43), the two accesses and the pseudo-instructions (R50, R51). -/
inductive Keyword where
  | nop
  | enc
  | dec
  | fwd
  | inv
  | cntx
  | cntg
  | clrs
  | wr
  | rd
  | cmd
  | wrtxt
  | rdtxt
  | wrbytes
  deriving DecidableEq, Repr

/-- The keywords' spellings. -/
def keywords : List (List Char × Keyword) :=
  [(['N', 'O', 'P'], .nop), (['E', 'N', 'C'], .enc), (['D', 'E', 'C'], .dec), (['F', 'W', 'D'], .fwd),
   (['I', 'N', 'V'], .inv), (['C', 'N', 'T', 'X'], .cntx), (['C', 'N', 'T', 'G'], .cntg), (['C', 'L', 'R', 'S'], .clrs),
   (['W', 'R'], .wr), (['R', 'D'], .rd), (['C', 'M', 'D'], .cmd), (['W', 'R', 'T', 'X', 'T'], .wrtxt),
   (['R', 'D', 'T', 'X', 'T'], .rdtxt), (['W', 'R', 'B', 'Y', 'T', 'E', 'S'], .wrbytes)]

/-- The register names' spellings (R50). -/
def registerNames : List (List Char × Reg) :=
  [(['C', 'M', 'D'], .cmd), (['S', 'T', 'A', 'T', 'U', 'S'], .status), (['W', 'O', 'R', 'D'], .word),
   (['R', 'E', 'S', 'U', 'L', 'T'], .result), (['T', 'X', 'T', '0'], .txt 0), (['T', 'X', 'T', '1'], .txt 1),
   (['T', 'X', 'T', '2'], .txt 2), (['T', 'X', 'T', '3'], .txt 3), (['T', 'X', 'T', '4'], .txt 4)]

/-- The keyword a name spells. -/
def keywordOf (cs : List Char) : Option Keyword := (keywords.find? (fun p => p.1 == cs)).map (fun p => p.2)

/-- The register a name spells (R50). -/
def registerOf (cs : List Char) : Option Reg := (registerNames.find? (fun p => p.1 == cs)).map (fun p => p.2)

/-- The commands that take no operand (R49). -/
def plainCommand : Keyword → Option Instr
  | .nop => some .nop
  | .enc => some .enc
  | .dec => some .dec
  | .clrs => some .clrs
  | _ => none

/-- The commands that take one operand; FWD with 85..255 is accepted, "a legal spelling of an IllegalCommand" (R49). -/
def operandCommand (k : Keyword) (imm : Byte) : Option Instr :=
  match k with
  | .fwd => some (.fwd imm)
  | .inv => some (.inv imm)
  | .cntx => some (.cntx imm)
  | .cntg => some (.cntg imm)
  | _ => none

/-- A command: its mnemonic, followed for FWD, INV, CNTX and CNTG by one operand (R49). -/
def commandOfTokens : List Token → Option Instr
  | [.name m] => (keywordOf m).bind plainCommand
  | [.name m, t] => (keywordOf m).bind (fun k => (byteOperandOf t).bind (operandCommand k))
  | _ => none

/-- The word index of a register: its name, or `#n` for index n (R50), n below 16 in decimal or `0x` hexadecimal (log
entry 14, DESIGN CHOICE). -/
def indexOfToken : Token → Option (BitVec 4)
  | .name ('#' :: ds) => (numberOf ds).bind (fun n => if n < Config.windowWords then some (BitVec.ofNat 4 n) else none)
  | .name cs => (registerOf cs).map Reg.idx
  | _ => none

/-- `CMD <command>` is `WR CMD, enc(<command>)` (R50, R51). -/
def commandAccess (i : Instr) : Access := .write Reg.cmd.idx (encode i)

/-- `WRTXT`: five writes, TXT0 first (R51). -/
def writeTextAccesses (c0 c1 c2 c3 c4 : Byte) : List Access :=
  [.write (Reg.txt 0).idx (zext32 c0), .write (Reg.txt 1).idx (zext32 c1), .write (Reg.txt 2).idx (zext32 c2),
   .write (Reg.txt 3).idx (zext32 c3), .write (Reg.txt 4).idx (zext32 c4)]

/-- `RDTXT`: five reads, TXT0 first (R51). -/
def readTextAccesses : List Access := charIndices.map (fun k => .read (Reg.txt k).idx)

/-- `WRBYTES`: one write of the big-endian block value (R51). -/
def writeBytesAccess (b0 b1 b2 b3 : Byte) : Access := .write Reg.word.idx (be32 b0 b1 b2 b3)

/-- The operands of a list in which exactly one comma stands between each two. -/
def commaSeparated : List Token → Option (List Token)
  | [] => some []
  | [t] => some [t]
  | t :: c :: rest => if c = .comma ∧ rest.isEmpty = false then (commaSeparated rest).map (fun ts => t :: ts) else none

/-- `WR <reg>, <value>` is RegWrite(idx(reg), value) (R50). -/
def writeStatement : List Token → Option (List Access)
  | [r, v] => (indexOfToken r).bind (fun idx => (wordOperandOf v).map (fun w => [.write idx w]))
  | _ => none

/-- `RD <reg>` is RegRead(idx(reg)) (R50). -/
def readStatement : List Token → Option (List Access)
  | [r] => (indexOfToken r).map (fun idx => [.read idx])
  | _ => none

/-- `WRTXT "c0c1c2c3c4"` takes a string of five characters (R51), none of them a double quote (log entry 13). -/
def writeTextStatement : List Token → Option (List Access)
  | [.text [c0, c1, c2, c3, c4]] => some (writeTextAccesses c0 c1 c2 c3 c4)
  | _ => none

/-- `WRBYTES b0,b1,b2,b3` takes four bytes (R51). DESIGN CHOICE (log entry 14): R51 gives b0 to b3 no form, so each is
written as a command's operand is (R49), a decimal or `0x` number up to 255 or a quoted character, and any other is rejected.
Safe: no effect on the machine (D25). -/
def writeBytesStatement : List Token → Option (List Access)
  | [t0, t1, t2, t3] =>
    (byteOperandOf t0).bind fun b0 => (byteOperandOf t1).bind fun b1 => (byteOperandOf t2).bind fun b2 =>
      (byteOperandOf t3).map fun b3 => [writeBytesAccess b0 b1 b2 b3]
  | _ => none

/-- The accesses of a statement: its keyword and what follows it, a pseudo-instruction giving those of its expansion
(R50, R51). A mnemonic begins no statement: a command stands after CMD. -/
def accessesOfStatement (k : Keyword) (args : List Token) : Option (List Access) :=
  match k with
  | .wr => (commaSeparated args).bind writeStatement
  | .rd => readStatement args
  | .cmd => (commandOfTokens args).map (fun i => [commandAccess i])
  | .wrtxt => writeTextStatement args
  | .rdtxt => if args.isEmpty then some readTextAccesses else none
  | .wrbytes => (commaSeparated args).bind writeBytesStatement
  | .nop => none
  | .enc => none
  | .dec => none
  | .fwd => none
  | .inv => none
  | .cntx => none
  | .cntg => none
  | .clrs => none

/-- The accesses of a line's tokens; an empty line has none. -/
def accessesOfTokens : List Token → Option (List Access)
  | [] => some []
  | .name m :: args => (keywordOf m).bind (fun k => accessesOfStatement k args)
  | _ => none

/-- The word a command's text is assembled to (R49). -/
def assembleCommand (line : List Char) : Option Word :=
  ((lexLine (.plain []) line).bind commandOfTokens).map encode

/-- The accesses of one line of a host program; an empty or comment line has none (R50). -/
def assembleLine (line : List Char) : Option (List Access) :=
  (lexLine (.plain []) line).bind accessesOfTokens

/-- A host program, one access or pseudo-instruction a line (R50); none if a line is rejected. -/
def assembleProgram : List (List Char) → Option (List Access)
  | [] => some []
  | line :: rest => (assembleLine line).bind (fun as => (assembleProgram rest).map (fun bs => as ++ bs))

/-- The machine whose host runs a list of accesses next, in order (R35, R50). -/
def State.withProgram (s : State) (accesses : List Access) : State :=
  { s with pending := accesses.map .access ++ s.pending }

end Sys2Proof.Machine
end

