-- ==== Sys2Proof/Machine/Instances.lean ====
section
/-! DEFINITION. Several instances of the block side by side (spec/60_exceptions.md R98): each has registers and a host
port of its own, they share only the constant tables, "start together at reset, and exchange no signals". Which
instance moves next is the caller's choice, so every interleaving is covered (notes/assumptions/6.md). -/

namespace Sys2Proof.Machine

/-- The instances of a platform, told apart by their place in the list: "Instances have no identifiers" of their own
(R98). -/
abbrev Platform := List State

/-- n instances that start together at reset (R98). -/
def Platform.start (n : Nat) : Platform := List.replicate n State.reset

/-- Instance k takes one step; none if there is no such instance. The others are as they were. -/
def Platform.stepAt (p : Platform) (k : Nat) : Option (Host.Outcome Platform Fault Refusal) :=
  match p[k]? with
  | none => none
  | some s =>
    match step s with
    | .next s' => some (.next (p.set k s'))
    | .fault r => some (.fault r)
    | .refused r => some (.refused r)

end Sys2Proof.Machine
end

