-- ==== Sys2Proof/Machine/Stream.lean ====
section
/-! DEFINITION. The strict and padded modes and counter extraction over whole sequences, as the pure functions that are
their normative results (spec/45_stream_modes.md R71 to R77). Lengths are unbounded natural numbers (R72). -/

namespace Sys2Proof.Machine

/-- The detail of a stream-level error (R71). -/
inductive Detail where
  /-- InvalidLength carries the length that failed the check. -/
  | length (n : Nat)
  /-- InvalidCharacter carries the position in the text the operation was given and the byte. -/
  | char (position : Nat) (c : Byte)
  /-- InvalidCounter carries the byte. -/
  | counter (c : Byte)
  /-- InvalidCounter of an empty text. -/
  | absent
  /-- InvalidPadding carries the counter and the decoded length. -/
  | padding (n m : Nat)
  deriving DecidableEq, Repr

/-- `Ok(v)` or `Err(code, detail)`; an `Err` returns no output (spec/00_scope.md R10, R71). The code of a name is
`ErrorName.code`. -/
inductive Result (α : Type) where
  | ok (v : α)
  | err (e : ErrorName) (detail : Detail)
  deriving DecidableEq, Repr

/-- The result with its value changed; an error passes through. -/
def Result.map {α β : Type} (f : α → β) : Result α → Result β
  | .ok v => .ok (f v)
  | .err e d => .err e d

/-- Five characters as the block's text registers hold them. -/
def textOf (c0 c1 c2 c3 c4 : Byte) : Fin Config.blockChars → Byte := fun k =>
  match k with
  | 0 => c0
  | 1 => c1
  | 2 => c2
  | 3 => c3
  | 4 => c4

/-- enc5(w): the five characters of a block value (R72). -/
def enc5 (w : Word) : List Byte := charIndices.map (fun k => fwdRom (digit w k))

/-- What dec5 answers: `Bad(j, c)`, or the 32-bit block value (R72). -/
inductive Dec5 where
  | bad (j : Fin Config.blockChars) (c : Byte)
  | value (w : Word)
  deriving DecidableEq, Repr

/-- dec5(t): the least invalid index and its character, or the text value modulo 2^32 (R72). -/
def dec5 (t : Fin Config.blockChars → Byte) : Dec5 :=
  match firstInvalid t with
  | some j => .bad j (t j)
  | none => .value (BitVec.ofNat 32 (textValue t))

/-- The blocks of an aligned payload, encoded in order (the loop of R73). -/
def encodeBlocks : List Byte → List Byte
  | b0 :: b1 :: b2 :: b3 :: rest => enc5 (be32 b0 b1 b2 b3) ++ encodeBlocks rest
  | _ => []

/-- The blocks of an aligned text, decoded in order, `base` being the position of the first character (the loop of
R74): the first invalid character ends it. -/
def decodeBlocks (base : Nat) : List Byte → Result (List Byte)
  | c0 :: c1 :: c2 :: c3 :: c4 :: rest =>
    match dec5 (textOf c0 c1 c2 c3 c4) with
    | .bad j c => .err .invalidCharacter (.char (base + j.val) c)
    | .value w => (decodeBlocks (base + 5) rest).map (fun out => bytesBe w ++ out)
  | _ => .ok []

/-- encode_strict(p) (R73). -/
def encodeStrict (p : List Byte) : Result (List Byte) :=
  if p.length % Config.blockBytes ≠ 0 then .err .invalidLength (.length p.length)
  else .ok (encodeBlocks p)

/-- decode_strict(t): the length is checked before any character (R74). -/
def decodeStrict (t : List Byte) : Result (List Byte) :=
  if t.length % Config.blockChars ≠ 0 then .err .invalidLength (.length t.length)
  else decodeBlocks 0 t

/-- The counter of a payload length: (4 - len mod 4) mod 4 (R75). -/
def paddingFor (len : Nat) : Nat := (4 - len % 4) % 4

/-- The payload with its zero filler bytes, aligned to 4 (R75). -/
def withFiller (p : List Byte) : List Byte := p ++ List.replicate (paddingFor p.length) 0x00#8

/-- The counter digit character of a payload length, '0'..'3' (R75). -/
def counterDigitFor (len : Nat) : Byte := counterBase + BitVec.ofNat 8 (paddingFor len)

/-- encode_padded(p): the encoded padded payload and, always, the counter digit (R75). -/
def encodePadded (p : List Byte) : Result (List Byte) :=
  (encodeStrict (withFiller p)).map (fun body => body ++ [counterDigitFor p.length])

/-- The counter a digit character stands for: d - 0x30 (R76). -/
def counterOf (d : Byte) : Nat := d.toNat - 0x30

/-- extract_counter(t): the last character alone is read; the body is not validated (R77). -/
def extractCounter (t : List Byte) : Result Nat :=
  match t.getLast? with
  | none => .err .invalidCounter .absent
  | some d => if isCounterDigit d then .ok (counterOf d) else .err .invalidCounter (.counter d)

/-- Steps 5 and 6 of R76: the counter against the decoded length, and the filler dropped unread. -/
def dropFiller (n : Nat) (decoded : List Byte) : Result (List Byte) :=
  if decoded.length < n then .err .invalidPadding (.padding n decoded.length)
  else .ok (decoded.take (decoded.length - n))

/-- decode_padded(t): counter, then length, then characters, then padding (R76, decision D22). The filler bytes are not
checked (D23). -/
def decodePadded (t : List Byte) : Result (List Byte) :=
  match t.getLast? with
  | none => .err .invalidCounter .absent
  | some d =>
    if isCounterDigit d = false then .err .invalidCounter (.counter d)
    else if t.dropLast.length % Config.blockChars ≠ 0 then .err .invalidLength (.length t.dropLast.length)
    else
      match decodeStrict t.dropLast with
      | .err e detail => .err e detail
      | .ok decoded => dropFiller (counterOf d) decoded

end Sys2Proof.Machine
end

