-- ==== Sys2Proof/Machine/Procedures.lean ====
section
/-! DEFINITION. The reference host procedures over the block (spec/45_stream_modes.md R78 to R82). A procedure is a host
program whose next access may depend on the values read so far; each of its accesses is one `step` of the machine. The
loops, tests and list building between the accesses are the host's, not the block's. -/

namespace Sys2Proof.Machine

/-- A host program: it ends with a result, or it issues one access and goes on, after a read with the value read
(spec/30_encoding.md R50). -/
inductive HostProgram (α : Type) where
  | done (a : α)
  | wr (idx : BitVec 4) (v : Word) (next : HostProgram α)
  | rd (idx : BitVec 4) (next : Word → HostProgram α)

/-- One program after another, the second given the first's result. -/
def HostProgram.bind {α β : Type} : HostProgram α → (α → HostProgram β) → HostProgram β
  | .done a, f => f a
  | .wr idx v next, f => .wr idx v (next.bind f)
  | .rd idx next, f => .rd idx (fun v => (next v).bind f)

/-- The machine steps with this access issued next. -/
def issue (a : Access) (s : State) : Host.Outcome State Fault Refusal :=
  step { s with pending := .access a :: s.pending }

/-- The value the program's latest RegRead recorded. -/
def lastRead (s : State) : Word := s.reads.getLast?.getD 0x00000000#32

/-- Runs a host program on the machine, one step for each access; none if the machine stops. -/
def HostProgram.run {α : Type} : HostProgram α → State → Option (α × State)
  | .done a, s => some (a, s)
  | .wr idx v next, s =>
    match issue (.write idx v) s with
    | .next s' => next.run s'
    | _ => none
  | .rd idx next, s =>
    match issue (.read idx) s with
    | .next s' => (next (lastRead s')).run s'
    | _ => none

/-- `CMD <command>`: WR CMD, enc(command) (spec/30_encoding.md R50, R51). -/
def HostProgram.command {α : Type} (i : Instr) (next : HostProgram α) : HostProgram α :=
  .wr Reg.cmd.idx (encode i) next

/-- `WRTXT`: the five characters to TXT0..TXT4 in order (spec/30_encoding.md R51). -/
def HostProgram.writeText {α : Type} (c0 c1 c2 c3 c4 : Byte) (next : HostProgram α) : HostProgram α :=
  .wr (Reg.txt 0).idx (zext32 c0) <| .wr (Reg.txt 1).idx (zext32 c1) <| .wr (Reg.txt 2).idx (zext32 c2) <|
  .wr (Reg.txt 3).idx (zext32 c3) <| .wr (Reg.txt 4).idx (zext32 c4) next

/-- `RDTXT`: TXT0..TXT4 in order, bits [7:0] of each (spec/30_encoding.md R51). -/
def HostProgram.readText {α : Type} (next : List Byte → HostProgram α) : HostProgram α :=
  .rd (Reg.txt 0).idx fun v0 => .rd (Reg.txt 1).idx fun v1 => .rd (Reg.txt 2).idx fun v2 =>
  .rd (Reg.txt 3).idx fun v3 => .rd (Reg.txt 4).idx fun v4 =>
  next [lowByte v0, lowByte v1, lowByte v2, lowByte v3, lowByte v4]

/-- The loop of R78: WR WORD, CMD ENC, RDTXT for each 4-byte group. -/
def encodeLoop : List Byte → HostProgram (List Byte)
  | b0 :: b1 :: b2 :: b3 :: rest =>
    .wr Reg.word.idx (be32 b0 b1 b2 b3) <| .command .enc <| .readText fun chars =>
      (encodeLoop rest).bind fun out => .done (chars ++ out)
  | _ => .done []

/-- The procedure for encode_strict (R78): the length check is the host's. -/
def encodeStrictProcedure (p : List Byte) : HostProgram (Result (List Byte)) :=
  if p.length % Config.blockBytes ≠ 0 then .done (.err .invalidLength (.length p.length))
  else (encodeLoop p).bind fun out => .done (.ok out)

/-- The loop of R79: WRTXT, CMD DEC, RD STATUS, and RD WORD unless STATUS reports an invalid character. -/
def decodeLoop (base : Nat) : List Byte → HostProgram (Result (List Byte))
  | c0 :: c1 :: c2 :: c3 :: c4 :: rest =>
    .writeText c0 c1 c2 c3 c4 <| .command .dec <| .rd Reg.status.idx fun st =>
      if statusErr st = ErrorName.invalidCharacter.code then
        .done (.err .invalidCharacter (.char (base + (statusPos st).toNat) (statusByte st)))
      else .rd Reg.word.idx fun w =>
        (decodeLoop (base + 5) rest).bind fun r => .done (r.map (fun out => bytesBe w ++ out))
  | _ => .done (.ok [])

/-- The procedure for decode_strict (R79). -/
def decodeStrictProcedure (t : List Byte) : HostProgram (Result (List Byte)) :=
  if t.length % Config.blockChars ≠ 0 then .done (.err .invalidLength (.length t.length))
  else decodeLoop 0 t

/-- The procedure for encode_padded (R80): CNTG gives the counter digit, and the host appends the filler. -/
def encodePaddedProcedure (p : List Byte) : HostProgram (Result (List Byte)) :=
  .command (.cntg (BitVec.ofNat 8 p.length)) <| .rd Reg.result.idx fun d =>
    (encodeStrictProcedure (p ++ List.replicate (counterOf (lowByte d)) 0x00#8)).bind fun r =>
      .done (r.map (fun body => body ++ [lowByte d]))

/-- The procedure for decode_padded (R81): the last character goes to CNTX; the length and padding checks are the
host's. -/
def decodePaddedProcedure (t : List Byte) : HostProgram (Result (List Byte)) :=
  match t.getLast? with
  | none => .done (.err .invalidCounter .absent)
  | some d =>
    .command (.cntx d) <| .rd Reg.status.idx fun st =>
      if statusErr st = ErrorName.invalidCounter.code then .done (.err .invalidCounter (.counter (statusByte st)))
      else .rd Reg.result.idx fun n =>
        if t.dropLast.length % Config.blockChars ≠ 0 then .done (.err .invalidLength (.length t.dropLast.length))
        else (decodeStrictProcedure t.dropLast).bind fun r =>
          match r with
          | .err e detail => .done (.err e detail)
          | .ok decoded => .done (dropFiller n.toNat decoded)

/-- The procedure for extract_counter (R82). -/
def extractCounterProcedure (t : List Byte) : HostProgram (Result Nat) :=
  match t.getLast? with
  | none => .done (.err .invalidCounter .absent)
  | some d =>
    .command (.cntx d) <| .rd Reg.status.idx fun st =>
      if statusErr st = ErrorName.invalidCounter.code then .done (.err .invalidCounter (.counter (statusByte st)))
      else .rd Reg.result.idx fun n => .done (.ok n.toNat)

end Sys2Proof.Machine
end

