-- ==== Sys2Proof/Safety.lean ====
section
/-! DEFINITION. The terms claims are stated in: the legal STATUS and RESULT contents (spec/10_state.md R14, R16), the
invariant they make, and the events that do not stop the machine. -/

namespace Sys2Proof.Machine

/-- BYTE and POS of an IllegalCommand agree with the check that rejected the word (spec/30_encoding.md R44, R45, R46):
a reserved opcode, an unreserved opcode with reserved bits, a nonzero operand, a FWD index of 85 or more. -/
def legalRejection (pos : BitVec 3) (byte : Byte) : Bool :=
  if pos = 0#3 then decide (8 ≤ byte.toNat % 16)
  else if pos = 1#3 then decide (byte.toNat % 16 < 8)
  else if pos = 2#3 then decide (byte ≠ 0#8)
  else if pos = 3#3 then decide (Config.alphabetSize ≤ byte.toNat)
  else false

/-- The STATUS contents commands leave: ERR is 0, 2, 3 or 5 (R16: the stream-level codes and 6..15 are never written);
POS and BYTE are 0 when ERR is 0, and describe the error otherwise; an ERR other than 0 comes with ANYERR = 1
(spec/60_exceptions.md R88, R90). -/
def Status.legal (st : Status) : Bool :=
  if st.err = 0#4 then decide (st.pos = 0#3 ∧ st.byte = 0#8)
  else if st.err = 2#4 then st.anyErr && decide (st.pos.toNat ≤ 4) && !inAlphabet st.byte
  else if st.err = 3#4 then st.anyErr && decide (st.pos = 0#3) && !isCounterDigit st.byte
  else if st.err = 5#4 then st.anyErr && legalRejection st.pos st.byte
  else false

/-- What RESULT can hold: a digit value 0..84 (a counter among them) or an alphabet character (a counter digit among
them) (R14). -/
def legalResult (r : Byte) : Bool := decide (r.toNat < Config.alphabetSize) || inAlphabet r

/-- The invariant of one instance: RESULT and STATUS hold only what R14 and R16 allow. WORD and TXT may hold anything. -/
def State.Inv (s : State) : Prop := s.block.status.legal = true ∧ legalResult s.block.result = true

/-- The events the block serves: its host's accesses and the reset. The others are refused. -/
def Event.served : Event → Bool
  | .access _ => true
  | .reset => true
  | .otherShape _ => false
  | .secondHost _ => false
  | .duringReset _ => false

/-- A run of this machine never stops: every event to come is served. -/
def State.Safe (s : State) : Prop := ∀ e ∈ s.pending, e.served = true

/-- Every character of a text block is in the alphabet (spec/41_block_transform.md R59's valid digit values). -/
def validText (t : Fin Config.blockChars → Byte) : Prop := ∀ k, inAlphabet (t k) = true

/-- The word is rejected: the write to CMD records an IllegalCommand and writes STATUS alone (spec/43_control.md R70). -/
def commandRejected (cmd : Word) (s : State) : Prop :=
  ∃ pos byte, command cmd s = .next { s with block := { s.block with status := ⟨5#4, pos, byte, true⟩ } }

/-- DEC, executed at the state, succeeds and writes the block value to WORD: ERR is 0 after it
(spec/41_block_transform.md R61, R63). -/
def decodesTo (s : State) (w : Word) : Prop :=
  ∃ t, exec .dec s = .next t ∧ t.block.word = w ∧ t.block.status.err = 0#4

/-- The data registers of two states are equal: WORD, TXT0..TXT4 and RESULT (R12, R13, R14). -/
def sameData (s t : State) : Prop :=
  t.block.word = s.block.word ∧ (∀ k, t.block.txt k = s.block.txt k) ∧ t.block.result = s.block.result

/-- The host port of two states is equal: pending events, position and recorded reads. -/
def samePort (s t : State) : Prop :=
  t.pending = s.pending ∧ t.position = s.position ∧ t.reads = s.reads

end Sys2Proof.Machine
end

