-- ==== Sys2Proof/Certificates/Slice0/Obligations.lean ====
section
/-! DEFINITION. The statements about the Z85 codec core, one for each numbered rule of spec/ that says what a command
or the machine does, and the laws of the whole machine. A next state is written out as the whole record wherever that
says the frame: every field not named is unchanged. -/

open Sys2Proof Sys2Proof.Machine

-- ==== Encoding ====

/-- Command words written out from the spec's encodings decode to the commands they stand for (spec/30_encoding.md R49's
examples; NOP from R43, FWD 84 as the last legal index). -/
def Obligations.SpecWordsDecode : Prop :=
  decode 0x00000000#32 = .legal .nop ∧
  decode 0x00000001#32 = .legal .enc ∧
  decode 0x00000002#32 = .legal .dec ∧
  decode 0x00002B03#32 = .legal (.fwd 43#8) ∧
  decode 0x00005403#32 = .legal (.fwd 84#8) ∧
  decode 0x00004804#32 = .legal (.inv 0x48#8) ∧
  decode 0x00003305#32 = .legal (.cntx 0x33#8) ∧
  decode 0x00000506#32 = .legal (.cntg 5#8) ∧
  decode 0x00000007#32 = .legal .clrs

/-- Decoding the encoding of any command gives it back; of the ill-formed ones, FWD 85 to 255, it gives R46's
rejection. -/
def Obligations.DecodeOfEncode : Prop :=
  ∀ i : Instr, decode (encode i) = if i.wellFormed then .legal i else .illegal .operandOutOfRange

/-- Each legal word has one meaning: a word that decodes to a command is that command's encoding, and the command is
well formed. -/
def Obligations.DecodedWordIsItsEncoding : Prop :=
  ∀ (cmd : Word) (i : Instr), decode cmd = .legal i → encode i = cmd ∧ i.wellFormed = true

/-- R47's count of the legal words, opcode by opcode and in total, with no word listed twice; every other word is an
IllegalCommand. -/
def Obligations.LegalWordsPerOpcode : Prop :=
  (∀ op : BitVec 4, ∃ words : List Word, words.Nodup ∧
    words.length = [1, 1, 1, 85, 256, 256, 256, 1].getD op.toNat 0 ∧
    ∀ cmd : Word, cmd ∈ words ↔ ∃ i, decode cmd = .legal i ∧ i.opcode = op) ∧
  (∃ words : List Word, words.Nodup ∧ words.length = 857 ∧
    ∀ cmd : Word, cmd ∈ words ↔ ∃ i, decode cmd = .legal i) ∧
  (∀ cmd : Word, (¬ ∃ i, decode cmd = .legal i) → ∃ cause, ∀ s : State,
    command cmd s = raise .illegalCommand (IllegalCause.subcause cause) (cause.detail cmd) s)

/-- R43's rows: each row is its opcode's, no word matches two rows, a word that decodes to a command matches the row of
its opcode, and a word that matches a row decodes to a command of that opcode, but for FWD with an IMM8 above 84. -/
def Obligations.OpcodeRowsAgreeWithDecode : Prop :=
  opcodeRows.length = 8 ∧
  (∀ (cmd : Word) (m n : Nat) (r q : OpcodeRow), opcodeRows[m]? = some r → opcodeRows[n]? = some q →
    r.matchesWord cmd = true → q.matchesWord cmd = true → m = n) ∧
  (∀ (cmd : Word) (i : Instr), decode cmd = .legal i →
    ∃ r, opcodeRows[i.opcode.toNat]? = some r ∧ r.matchesWord cmd = true) ∧
  (∀ (cmd : Word) (n : Nat) (r : OpcodeRow), opcodeRows[n]? = some r → r.matchesWord cmd = true →
    (∃ i, decode cmd = .legal i ∧ i.opcode.toNat = n) ∨
    (n = 3 ∧ 84 < (cmd.extractLsb' 8 8).toNat ∧ decode cmd = .illegal .operandOutOfRange))

/-- R48's procedure on every word and every state: the checks in order, each rejection with R44's, R45's and R46's
STATUS and nothing else written, and past the checks the command of the opcode with IMM8 as its operand. -/
def Obligations.CommandWriteDecodesAndExecutes : Prop :=
  ∀ (cmd : Word) (s : State),
    (8 ≤ (cmd.extractLsb' 0 4).toNat →
      command cmd s = .next { s with block := { s.block with
        status := ⟨5#4, 0#3, cmd.extractLsb' 0 8, true⟩ } }) ∧
    ((cmd.extractLsb' 0 4).toNat < 8 → (cmd.extractLsb' 4 4 ≠ 0#4 ∨ cmd.extractLsb' 16 16 ≠ 0#16) →
      command cmd s = .next { s with block := { s.block with
        status := ⟨5#4, 1#3, cmd.extractLsb' 0 8, true⟩ } }) ∧
    (cmd.extractLsb' 4 4 = 0#4 → cmd.extractLsb' 16 16 = 0#16 →
      ((cmd.extractLsb' 0 4 = 0#4 ∨ cmd.extractLsb' 0 4 = 1#4 ∨ cmd.extractLsb' 0 4 = 2#4 ∨
          cmd.extractLsb' 0 4 = 7#4) →
        cmd.extractLsb' 8 8 ≠ 0#8 →
        command cmd s = .next { s with block := { s.block with
          status := ⟨5#4, 2#3, cmd.extractLsb' 8 8, true⟩ } }) ∧
      (cmd.extractLsb' 0 4 = 3#4 → 85 ≤ (cmd.extractLsb' 8 8).toNat →
        command cmd s = .next { s with block := { s.block with
          status := ⟨5#4, 3#3, cmd.extractLsb' 8 8, true⟩ } }) ∧
      (cmd.extractLsb' 0 4 = 0#4 → cmd.extractLsb' 8 8 = 0#8 → command cmd s = exec .nop s) ∧
      (cmd.extractLsb' 0 4 = 1#4 → cmd.extractLsb' 8 8 = 0#8 → command cmd s = exec .enc s) ∧
      (cmd.extractLsb' 0 4 = 2#4 → cmd.extractLsb' 8 8 = 0#8 → command cmd s = exec .dec s) ∧
      (cmd.extractLsb' 0 4 = 3#4 → (cmd.extractLsb' 8 8).toNat < 85 →
        command cmd s = exec (.fwd (cmd.extractLsb' 8 8)) s) ∧
      (cmd.extractLsb' 0 4 = 4#4 → command cmd s = exec (.inv (cmd.extractLsb' 8 8)) s) ∧
      (cmd.extractLsb' 0 4 = 5#4 → command cmd s = exec (.cntx (cmd.extractLsb' 8 8)) s) ∧
      (cmd.extractLsb' 0 4 = 6#4 → command cmd s = exec (.cntg (cmd.extractLsb' 8 8)) s) ∧
      (cmd.extractLsb' 0 4 = 7#4 → cmd.extractLsb' 8 8 = 0#8 → command cmd s = exec .clrs s))

-- ==== The step and the register window ====

/-- When the host's next access writes to CMD a word that decodes to a command, the step is that command's execution at
the state with the access taken and the position one on; `withFetchWord` issues exactly that access. The port's fields and
the loading of a program are the model's own (log entries 1 and 2, DESIGN CHOICE). -/
def Obligations.StepRunsTheDecodedCommand : Prop :=
  (∀ (s : State) (rest : List Event) (cmd : Word) (i : Instr),
    s.pending = .access (.write 0#4 cmd) :: rest → decode cmd = .legal i →
    step s = exec i { s with pending := rest, position := s.position + 1 }) ∧
  (∀ (s : State) (cmd : Word) (i : Instr), decode cmd = .legal i →
    step (s.withFetchWord 32 cmd.toNat) = exec i { s with position := s.position + 1 })

/-- What a step does with every other event: a read records its value and changes no register, a write goes to
RegWrite, each moves the position on by one; the reset event is R100's; and an idle block keeps all its state. The port's
fields are the model's own (log entry 1, DESIGN CHOICE), and so is that a reset does not move the position (log entry 5,
DEDUCED). -/
def Obligations.StepServesTheOldestEvent : Prop :=
  (∀ (s : State) (rest : List Event) (idx : BitVec 4), s.pending = .access (.read idx) :: rest →
    step s = .next { s with pending := rest, position := s.position + 1,
                            reads := s.reads ++ [regRead idx s.block] }) ∧
  (∀ (s : State) (rest : List Event) (idx : BitVec 4) (v : Word), s.pending = .access (.write idx v) :: rest →
    step s = regWrite idx v { s with pending := rest, position := s.position + 1 }) ∧
  (∀ (s : State) (rest : List Event), s.pending = .reset :: rest →
    step s = .next { s with pending := rest, block := Block.reset }) ∧
  (∀ s : State, s.pending = [] → step s = .next s)

/-- The three kinds of access a model refuses, and the platform's byte-addressed map: one whole aligned word is the
access of its register, any other shape is refused (R22, R27, R98, R108). -/
def Obligations.RefusedAccesses : Prop :=
  (∀ (s : State) (rest : List Event) (a : Access), s.pending = .secondHost a :: rest →
    step s = .refused .sharedInstance) ∧
  (∀ (s : State) (rest : List Event) (a : Access), s.pending = .duringReset a :: rest →
    step s = .refused .accessDuringReset) ∧
  (∀ (s : State) (rest : List Event) (offset bytes : Nat) (store : Option Word),
    bytes ≠ 4 ∨ offset % 4 ≠ 0 → s.pending = busEvent offset bytes store :: rest →
    ∃ shape, step s = .refused (.otherAccessShape shape)) ∧
  (∀ (idx : BitVec 4) (v : Word), busEvent (4 * idx.toNat) 4 (some v) = .access (.write idx v) ∧
    busEvent (4 * idx.toNat) 4 none = .access (.read idx))

/-- R24: what RegRead returns at every index. -/
def Obligations.RegReadValues : Prop :=
  ∀ b : Block,
    regRead 0#4 b = 0x00000000#32 ∧
    regRead 1#4 b = (if b.status.anyErr then 1#1 else 0#1) ++ 0#15 ++ b.status.byte ++ 0#1 ++ b.status.pos
      ++ b.status.err ∧
    regRead 2#4 b = b.word ∧
    regRead 3#4 b = b.result.setWidth 32 ∧
    regRead 4#4 b = b.txt0.setWidth 32 ∧
    regRead 5#4 b = b.txt1.setWidth 32 ∧
    regRead 6#4 b = b.txt2.setWidth 32 ∧
    regRead 7#4 b = b.txt3.setWidth 32 ∧
    regRead 8#4 b = b.txt4.setWidth 32 ∧
    ∀ idx : BitVec 4, 9 ≤ idx.toNat → regRead idx b = 0x00000000#32

/-- R25: what RegWrite does at every index, whatever the value. -/
def Obligations.RegWriteEffects : Prop :=
  ∀ (v : Word) (s : State),
    regWrite 0#4 v s = command v s ∧
    regWrite 1#4 v s = .next s ∧
    regWrite 2#4 v s = .next { s with block := { s.block with word := v } } ∧
    regWrite 3#4 v s = .next s ∧
    regWrite 4#4 v s = .next { s with block := { s.block with txt0 := v.extractLsb' 0 8 } } ∧
    regWrite 5#4 v s = .next { s with block := { s.block with txt1 := v.extractLsb' 0 8 } } ∧
    regWrite 6#4 v s = .next { s with block := { s.block with txt2 := v.extractLsb' 0 8 } } ∧
    regWrite 7#4 v s = .next { s with block := { s.block with txt3 := v.extractLsb' 0 8 } } ∧
    regWrite 8#4 v s = .next { s with block := { s.block with txt4 := v.extractLsb' 0 8 } } ∧
    ∀ idx : BitVec 4, 9 ≤ idx.toNat → regWrite idx v s = .next s

/-- Read after write over the whole window but CMD: WORD reads back whole, TXTk reads back its low byte, a write to a
read-only or unmapped index changes no later read, and every other index reads as before. -/
def Obligations.ReadAfterWrite : Prop :=
  ∀ (idx j : BitVec 4) (v : Word) (s : State), idx ≠ 0#4 → ∃ t, regWrite idx v s = .next t ∧
    regRead j t.block =
      if j = idx then
        if idx = 2#4 then v
        else if 4 ≤ idx.toNat ∧ idx.toNat ≤ 8 then BitVec.ofNat 32 (v.toNat % 256)
        else regRead idx s.block
      else regRead j s.block

/-- R16's layout of the STATUS word as numbers: the formula with shifts, each field where the rule puts it, and the
reserved bits 0. -/
def Obligations.StatusWordLayout : Prop :=
  ∀ b : Block,
    (regRead 1#4 b).toNat = (if b.status.anyErr then 2 ^ 31 else 0) + b.status.byte.toNat * 2 ^ 8
      + b.status.pos.toNat * 2 ^ 4 + b.status.err.toNat ∧
    statusErr (regRead 1#4 b) = b.status.err ∧
    statusPos (regRead 1#4 b) = b.status.pos ∧
    statusByte (regRead 1#4 b) = b.status.byte ∧
    statusAnyErr (regRead 1#4 b) = b.status.anyErr ∧
    (regRead 1#4 b).getLsbD 7 = false ∧
    (∀ n, 16 ≤ n → n ≤ 30 → (regRead 1#4 b).getLsbD n = false)

/-- R100: reset, from any state, sets every register to its reset value, and the machine after reset holds those values.
R103: straight after reset ENC writes `00000`, and DEC fails at position 0 with byte 0x00. CLRS is no reset: it leaves the
data registers. The model's own, and not R100's: the host's port is kept across a reset (log entry 1, DESIGN CHOICE), its
position not advanced by it (log entry 5, DEDUCED). -/
def Obligations.ResetSetsEveryRegister : Prop :=
  (∀ (s : State) (rest : List Event), s.pending = .reset :: rest →
    step s = .next { s with pending := rest, block :=
      ⟨0x00000000#32, 0x00#8, 0x00#8, 0x00#8, 0x00#8, 0x00#8, 0x00#8, ⟨0#4, 0#3, 0x00#8, false⟩⟩ }) ∧
  State.reset.block =
    ⟨0x00000000#32, 0x00#8, 0x00#8, 0x00#8, 0x00#8, 0x00#8, 0x00#8, ⟨0#4, 0#3, 0x00#8, false⟩⟩ ∧
  (∀ idx : BitVec 4, regRead idx State.reset.block = 0x00000000#32) ∧
  exec .enc State.reset = .next { State.reset with block :=
    ⟨0x00000000#32, 0x30#8, 0x30#8, 0x30#8, 0x30#8, 0x30#8, 0x00#8, ⟨0#4, 0#3, 0x00#8, false⟩⟩ } ∧
  exec .dec State.reset = .next { State.reset with block :=
    ⟨0x00000000#32, 0x00#8, 0x00#8, 0x00#8, 0x00#8, 0x00#8, 0x00#8, ⟨2#4, 0#3, 0x00#8, true⟩⟩ } ∧
  (∀ s : State, ∃ t, exec .clrs s = .next t ∧ sameData s t)

-- ==== The tables ====

/-- R53: the alphabet's order by ranges, its 85 codes pairwise distinct and within 0x21..0x7D, and the ten printable
characters it leaves out. -/
def Obligations.AlphabetOrder : Prop :=
  (∀ i j : Fin 85, fwdRom i = fwdRom j → i = j) ∧
  (∀ i : Fin 85, i.val ≤ 9 → (fwdRom i).toNat = 0x30 + i.val) ∧
  (∀ i : Fin 85, 10 ≤ i.val → i.val ≤ 35 → (fwdRom i).toNat = 0x61 + (i.val - 10)) ∧
  (∀ i : Fin 85, 36 ≤ i.val → i.val ≤ 61 → (fwdRom i).toNat = 0x41 + (i.val - 36)) ∧
  fwdRomEntries.drop 62 = [0x2E#8, 0x2D#8, 0x3A#8, 0x2B#8, 0x3D#8, 0x5E#8, 0x21#8, 0x2F#8, 0x2A#8, 0x3F#8, 0x26#8,
    0x3C#8, 0x3E#8, 0x28#8, 0x29#8, 0x5B#8, 0x5D#8, 0x7B#8, 0x7D#8, 0x40#8, 0x25#8, 0x24#8, 0x23#8] ∧
  (∀ i : Fin 85, 0x21 ≤ (fwdRom i).toNat ∧ (fwdRom i).toNat ≤ 0x7D) ∧
  (∀ c : Byte, 0x20 ≤ c.toNat → c.toNat ≤ 0x7E → ((∀ i, fwdRom i ≠ c) ↔
    c ∈ [0x20#8, 0x22#8, 0x27#8, 0x2C#8, 0x3B#8, 0x5C#8, 0x5F#8, 0x60#8, 0x7C#8, 0x7E#8]))

/-- R54's two cases for every byte: (1, i) if c = FWD_ROM[i], and then i is unique, (0, 0) otherwise. -/
def Obligations.InverseTableCases : Prop :=
  ∀ c : Byte,
    (∀ i : Fin 85, c = fwdRom i → invRom c = ⟨true, BitVec.ofNat 7 i.val⟩ ∧ ∀ j : Fin 85, c = fwdRom j → j = i) ∧
    ((∀ i : Fin 85, c ≠ fwdRom i) → invRom c = ⟨false, 0#7⟩)

/-- The tables agree, R56's second sentence: INV_ROM of FWD_ROM[i] is (1, i), and FWD_ROM of a valid entry's value is the
character. -/
def Obligations.TablesAgree : Prop :=
  (∀ i : Fin 85, (invRom (fwdRom i)).valid = true ∧ (invRom (fwdRom i)).value.toNat = i.val) ∧
  (∀ c : Byte, (invRom c).valid = true →
    ∃ h : (invRom c).value.toNat < 85, fwdRom ⟨(invRom c).value.toNat, h⟩ = c)

/-- R55's list of the invalid bytes, 171 of them, and that '0' alone has value 0 among the valid ones. -/
def Obligations.StrictInvalidBytes : Prop :=
  (∀ c : Byte, inAlphabet c = false ↔
    c.toNat ≤ 0x20 ∨ c.toNat = 0x22 ∨ c.toNat = 0x27 ∨ c.toNat = 0x2C ∨ c.toNat = 0x3B ∨ c.toNat = 0x5C ∨
      c.toNat = 0x5F ∨ c.toNat = 0x60 ∨ c.toNat = 0x7C ∨ 0x7E ≤ c.toNat) ∧
  ((List.range 256).filter (fun n => inAlphabet (BitVec.ofNat 8 n))).length = 85 ∧
  ((List.range 256).filter (fun n => !inAlphabet (BitVec.ofNat 8 n))).length = 171 ∧
  (∀ c : Byte, inAlphabet c = true → ((invRom c).value = 0#7 ↔ c = 0x30#8))

-- ==== What each command does ====

/-- R68: NOP writes ERR, POS and BYTE to 0 and nothing else; its word, its malformed
words, which are rejected, and its example. -/
def Obligations.NopClearsTheLastError : Prop :=
  decode 0x00000000#32 = .legal .nop ∧
  (∀ s : State, exec .nop s = .next { s with block := { s.block with
    status := ⟨0#4, 0#3, 0x00#8, s.block.status.anyErr⟩ } }) ∧
  (∀ (cmd : Word) (s : State), cmd.extractLsb' 0 4 = 0#4 → cmd ≠ 0x00000000#32 → commandRejected cmd s) ∧
  (∀ s : State, command 0x00000100#32 s = .next { s with block := { s.block with
    status := ⟨5#4, 2#3, 0x01#8, true⟩ } }) ∧
  (∀ s : State, s.block.status.toWord = 0x80002003#32 →
    ∃ t, exec .nop s = .next t ∧ t.block.status.toWord = 0x80000000#32)

/-- R69: CLRS writes STATUS to 0x00000000 and nothing else; its word, its malformed words, which are
rejected and so set ANYERR, and its example. -/
def Obligations.ClrsClearsStatus : Prop :=
  decode 0x00000007#32 = .legal .clrs ∧
  (∀ s : State, exec .clrs s = .next { s with block := { s.block with status := ⟨0#4, 0#3, 0x00#8, false⟩ } }) ∧
  (∀ (cmd : Word) (s : State), cmd.extractLsb' 0 4 = 7#4 → cmd ≠ 0x00000007#32 → commandRejected cmd s) ∧
  (∀ s : State, command 0x00000107#32 s = .next { s with block := { s.block with
    status := ⟨5#4, 2#3, 0x01#8, true⟩ } }) ∧
  (∀ s t : State, exec .clrs s = .next t → t.block.status.toWord = 0x00000000#32)

/-- R57: FWD writes FWD_ROM[i] to RESULT for a digit i below 85; an index of 85 or more is IllegalCommand with
sub-cause 3 and BYTE = i, RESULT unchanged, in the decoder too; its words 0x0000ii03; a word of its opcode with reserved
bits is rejected; the corner cases. -/
def Obligations.FwdWritesTheTableEntry : Prop :=
  (∀ (imm : Byte) (s : State), imm.toNat < 85 → ∃ c, fwdRomEntries[imm.toNat]? = some c ∧
    exec (.fwd imm) s = .next { s with block := { s.block with
      result := c, status := ⟨0#4, 0#3, 0x00#8, s.block.status.anyErr⟩ } }) ∧
  (∀ (imm : Byte) (s : State), 85 ≤ imm.toNat →
    exec (.fwd imm) s = .next { s with block := { s.block with status := ⟨5#4, 3#3, imm, true⟩ } } ∧
    command (0#16 ++ imm ++ 0x03#8) s = .next { s with block := { s.block with status := ⟨5#4, 3#3, imm, true⟩ } }) ∧
  (∀ imm : Byte, imm.toNat < 85 → decode (0#16 ++ imm ++ 0x03#8) = .legal (.fwd imm)) ∧
  (∀ (cmd : Word) (s : State), cmd.extractLsb' 0 4 = 3#4 → (∀ imm : Byte, cmd ≠ 0#16 ++ imm ++ 0x03#8) →
    commandRejected cmd s) ∧
  fwdRomEntries[0]? = some 0x30#8 ∧ fwdRomEntries[43]? = some 0x48#8 ∧ fwdRomEntries[84]? = some 0x23#8

/-- R58: INV writes the digit i of an alphabet character to RESULT; any other byte is InvalidCharacter with POS = 0 and
BYTE = the byte, RESULT unchanged; its words 0x0000cc04; the corner cases. -/
def Obligations.InvWritesTheDigit : Prop :=
  (∀ (i : Fin 85) (imm : Byte) (s : State), imm = fwdRom i →
    exec (.inv imm) s = .next { s with block := { s.block with
      result := BitVec.ofNat 8 i.val, status := ⟨0#4, 0#3, 0x00#8, s.block.status.anyErr⟩ } }) ∧
  (∀ (imm : Byte) (s : State), (∀ i : Fin 85, imm ≠ fwdRom i) →
    exec (.inv imm) s = .next { s with block := { s.block with status := ⟨2#4, 0#3, imm, true⟩ } }) ∧
  (∀ imm : Byte, decode (0#16 ++ imm ++ 0x04#8) = .legal (.inv imm)) ∧
  fwdRom 0 = 0x30#8 ∧ fwdRom 84 = 0x23#8 ∧ fwdRom 43 = 0x48#8 ∧
  (∀ c ∈ [0x20#8, 0x00#8, 0x7E#8, 0x80#8], ∀ i : Fin 85, c ≠ fwdRom i)

/-- R60: ENC writes FWD_ROM[(w div 85^(4-k)) mod 85] to TXTk for the block value w of WORD, clears ERR, POS and BYTE, and
writes nothing else; it cannot fail; a malformed ENC word writes STATUS alone; the corner cases. -/
def Obligations.EncWritesTheDigits : Prop :=
  decode 0x00000001#32 = .legal .enc ∧
  (∀ s : State, ∃ d : Fin 5 → Fin 85, (∀ k, (d k).val = s.block.word.toNat / 85 ^ (4 - k.val) % 85) ∧
    exec .enc s = .next { s with block := { s.block with
      txt0 := fwdRom (d 0), txt1 := fwdRom (d 1), txt2 := fwdRom (d 2), txt3 := fwdRom (d 3), txt4 := fwdRom (d 4),
      status := ⟨0#4, 0#3, 0x00#8, s.block.status.anyErr⟩ } }) ∧
  (∀ (cmd : Word) (s : State), cmd.extractLsb' 0 4 = 1#4 → cmd ≠ 0x00000001#32 → commandRejected cmd s) ∧
  (∀ s t : State, exec .enc s = .next t →
    t.block.txt0 ≠ 0x24#8 ∧ t.block.txt0 ≠ 0x23#8 ∧ (∀ k, inAlphabet (t.block.txt k) = true) ∧
    (∃ u, exec .enc t = .next u ∧ u.block.txt = t.block.txt)) ∧
  (∀ s t : State, exec .enc s = .next t →
    (s.block.word = 0x00000000#32 → t.block.txt = textOf 0x30#8 0x30#8 0x30#8 0x30#8 0x30#8) ∧
    (s.block.word = 0x00000054#32 → t.block.txt = textOf 0x30#8 0x30#8 0x30#8 0x30#8 0x23#8) ∧
    (s.block.word = 0x00000055#32 → t.block.txt = textOf 0x30#8 0x30#8 0x30#8 0x31#8 0x30#8) ∧
    (s.block.word = 0xFFFFFFFF#32 → t.block.txt = textOf 0x25#8 0x6E#8 0x53#8 0x63#8 0x30#8) ∧
    (s.block.word = 0x864FD26F#32 → t.block.txt = textOf 0x48#8 0x65#8 0x6C#8 0x6C#8 0x6F#8))

/-- R61: with five alphabet characters DEC writes the text value modulo 2^32 to WORD and clears ERR, POS and BYTE;
otherwise it reports the least invalid index and its byte and leaves WORD; TXT and RESULT never change; a malformed DEC
word writes STATUS alone; the corner cases. The text value is the sum of R59; that the accumulator wrapping at each
digit gives the same is part of the claim. -/
def Obligations.DecWritesTheTextValue : Prop :=
  decode 0x00000002#32 = .legal .dec ∧
  (∀ s : State, validText s.block.txt →
    exec .dec s = .next { s with block := { s.block with
      word := BitVec.ofNat 32 (textValue s.block.txt % 2 ^ 32),
      status := ⟨0#4, 0#3, 0x00#8, s.block.status.anyErr⟩ } }) ∧
  (∀ (s : State) (j : Fin 5), inAlphabet (s.block.txt j) = false →
    (∀ k : Fin 5, k.val < j.val → inAlphabet (s.block.txt k) = true) →
    exec .dec s = .next { s with block := { s.block with
      status := ⟨2#4, BitVec.ofNat 3 j.val, s.block.txt j, true⟩ } }) ∧
  (∀ (cmd : Word) (s : State), cmd.extractLsb' 0 4 = 2#4 → cmd ≠ 0x00000002#32 → commandRejected cmd s) ∧
  (∀ s t : State, exec .dec s = .next t →
    (s.block.txt = textOf 0x30#8 0x30#8 0x30#8 0x30#8 0x30#8 → t.block.word = 0x00000000#32 ∧ t.block.status.err = 0#4) ∧
    (s.block.txt = textOf 0x25#8 0x6E#8 0x53#8 0x63#8 0x30#8 → t.block.word = 0xFFFFFFFF#32 ∧ t.block.status.err = 0#4) ∧
    (s.block.txt = textOf 0x25#8 0x6E#8 0x53#8 0x63#8 0x31#8 → t.block.word = 0x00000000#32 ∧ t.block.status.err = 0#4) ∧
    (s.block.txt = textOf 0x23#8 0x23#8 0x23#8 0x23#8 0x23#8 → t.block.word = 0x08780EC4#32 ∧ t.block.status.err = 0#4) ∧
    (s.block.txt = textOf 0x57#8 0x6F#8 0x72#8 0x6C#8 0x64#8 → t.block.word = 0xB559F75B#32 ∧ t.block.status.err = 0#4) ∧
    (s.block.txt = textOf 0x48#8 0x65#8 0x6C#8 0x20#8 0x6F#8 → t.block.status = ⟨2#4, 3#3, 0x20#8, true⟩) ∧
    (s.block.txt = textOf 0x20#8 0x7E#8 0x6C#8 0x6C#8 0x6F#8 → t.block.status = ⟨2#4, 0#3, 0x20#8, true⟩) ∧
    (s.block.txt = textOf 0x00#8 0x00#8 0x00#8 0x00#8 0x00#8 → t.block.status = ⟨2#4, 0#3, 0x00#8, true⟩))

/-- R65: CNTX of the character 0x30 + n, n in 0..3, writes n to RESULT; any other byte is InvalidCounter with POS = 0 and
BYTE = the byte, RESULT unchanged; its words 0x0000cc05. -/
def Obligations.CntxExtractsTheCounter : Prop :=
  (∀ (imm : Byte) (s : State), 0x30 ≤ imm.toNat → imm.toNat ≤ 0x33 →
    exec (.cntx imm) s = .next { s with block := { s.block with
      result := BitVec.ofNat 8 (imm.toNat - 0x30), status := ⟨0#4, 0#3, 0x00#8, s.block.status.anyErr⟩ } }) ∧
  (∀ (imm : Byte) (s : State), imm.toNat < 0x30 ∨ 0x33 < imm.toNat →
    exec (.cntx imm) s = .next { s with block := { s.block with status := ⟨3#4, 0#3, imm, true⟩ } }) ∧
  (∀ imm : Byte, decode (0#16 ++ imm ++ 0x05#8) = .legal (.cntx imm))

/-- R66: CNTG writes 0x30 + (4 - L mod 4) mod 4 to RESULT for every operand L, and cannot fail; its words
0x0000LL06, and a word of its opcode with reserved bits is rejected. -/
def Obligations.CntgGeneratesTheDigit : Prop :=
  (∀ (imm : Byte) (s : State),
    exec (.cntg imm) s = .next { s with block := { s.block with
      result := BitVec.ofNat 8 (0x30 + (4 - imm.toNat % 4) % 4),
      status := ⟨0#4, 0#3, 0x00#8, s.block.status.anyErr⟩ } }) ∧
  (∀ imm : Byte, decode (0#16 ++ imm ++ 0x06#8) = .legal (.cntg imm)) ∧
  (∀ (cmd : Word) (s : State), cmd.extractLsb' 0 4 = 6#4 → (∀ imm : Byte, cmd ≠ 0#16 ++ imm ++ 0x06#8) →
    commandRejected cmd s)

-- ==== Laws of the commands ====

/-- R59: the digits of a block value are below 85 and their weighted sum is the value; the text value of a text block of
alphabet characters is below 85^5; the weights. -/
def Obligations.DigitsSumToTheBlockValue : Prop :=
  (∀ w : Word, (∀ k : Fin 5, (digit w k).val = w.toNat / 85 ^ (4 - k.val) % 85) ∧
    w.toNat = (digit w 0).val * 52200625 + (digit w 1).val * 614125 + (digit w 2).val * 7225 + (digit w 3).val * 85
      + (digit w 4).val) ∧
  (∀ t : Fin 5 → Byte, validText t →
    textValue t = charValue (t 0) * 52200625 + charValue (t 1) * 614125 + charValue (t 2) * 7225
      + charValue (t 3) * 85 + charValue (t 4) ∧ textValue t ≤ 4437053124) ∧
  (85 : Nat) ^ 5 = 4437053125 ∧ (2 : Nat) ^ 32 = 4294967296

/-- R62: ENC then DEC restores WORD with ERR = 0, from every state; DEC then ENC restores a text of value below 2^32, and
of value 2^32 or more gives a different text, the encoding of the value modulo 2^32. -/
def Obligations.BlockRoundTrip : Prop :=
  (∀ s : State, ∃ t u, exec .enc s = .next t ∧ exec .dec t = .next u ∧
    u.block.word = s.block.word ∧ u.block.status.err = 0#4) ∧
  (∀ s : State, validText s.block.txt → ∃ t u, exec .dec s = .next t ∧ exec .enc t = .next u ∧
    (textValue s.block.txt < 2 ^ 32 → u.block.txt = s.block.txt) ∧
    (2 ^ 32 ≤ textValue s.block.txt → u.block.txt ≠ s.block.txt ∧
      ∀ k, u.block.txt k = fwdRom (digit (BitVec.ofNat 32 (textValue s.block.txt % 2 ^ 32)) k)))

/-- R63: the overflow region by its first characters, its size, that ENC never writes such a block, and that DEC, executed
on any state, gives a value below 142085829 for exactly two text blocks and every other value for exactly one; and DEC
writes the value that R72's dec5 answers. -/
def Obligations.OverflowRegion : Prop :=
  (∀ t : Fin 5 → Byte, validText t →
    (2 ^ 32 ≤ textValue t ↔ t 0 = 0x24#8 ∨ t 0 = 0x23#8 ∨
      (t 0 = 0x25#8 ∧ 14516046 ≤ charValue (t 1) * 85 ^ 3 + charValue (t 2) * 85 ^ 2 + charValue (t 3) * 85
        + charValue (t 4)))) ∧
  (85 : Nat) ^ 5 - 2 ^ 32 = 142085829 ∧
  (∀ n : Nat, n < 85 ^ 5 → ∃ t : Fin 5 → Byte, validText t ∧ textValue t = n ∧
    ∀ u : Fin 5 → Byte, validText u → textValue u = n → u = t) ∧
  (∀ s t : State, exec .enc s = .next t → validText t.block.txt ∧ textValue t.block.txt < 2 ^ 32) ∧
  (∀ w : Word, w.toNat < 142085829 → ∃ t u : Fin 5 → Byte, t ≠ u ∧ validText t ∧ validText u ∧
    textValue t = w.toNat ∧ textValue u = w.toNat + 2 ^ 32 ∧
    ∀ s : State, decodesTo s w ↔ s.block.txt = t ∨ s.block.txt = u) ∧
  (∀ w : Word, 142085829 ≤ w.toNat → ∃ t : Fin 5 → Byte, validText t ∧ textValue t = w.toNat ∧
    ∀ s : State, decodesTo s w ↔ s.block.txt = t) ∧
  (∀ (s : State) (w : Word), dec5 s.block.txt = .value w ↔ decodesTo s w)

/-- R67: CNTG L then CNTX of the RESULT character succeeds and leaves RESULT = (4 - L mod 4) mod 4, for every L and
state. -/
def Obligations.CntxInvertsCntg : Prop :=
  ∀ (imm : Byte) (s : State), ∃ t u, exec (.cntg imm) s = .next t ∧ exec (.cntx t.block.result) t = .next u ∧
    u.block.status.err = 0#4 ∧ u.block.result.toNat = (4 - imm.toNat % 4) % 4

/-- R21's write sets as frames, for every command and state: the command goes on and leaves the host port; if it ends
with ERR = 0 it writes only its own destination, POS and BYTE are 0, and ANYERR is kept but by CLRS, which clears it; if
not, it leaves every data register and sets ANYERR. The host port's fields are the model's own (log entry 1). -/
def Obligations.CommandWriteSets : Prop :=
  ∀ (i : Instr) (s : State), ∃ t, exec i s = .next t ∧ samePort s t ∧
    (t.block.status.err = 0#4 →
      t.block.status.pos = 0#3 ∧ t.block.status.byte = 0x00#8 ∧
      (i ≠ .clrs → t.block.status.anyErr = s.block.status.anyErr) ∧
      (i = .clrs → t.block.status.anyErr = false) ∧
      (i ≠ .dec → t.block.word = s.block.word) ∧
      (i ≠ .enc → ∀ k, t.block.txt k = s.block.txt k) ∧
      ((i = .nop ∨ i = .enc ∨ i = .dec ∨ i = .clrs) → t.block.result = s.block.result)) ∧
    (t.block.status.err ≠ 0#4 → sameData s t ∧ t.block.status.anyErr = true)

/-- R90 and R91, for every one of the 2^32 words written to CMD, legal or not: the write goes on; a failing command
writes STATUS and nothing else, with ANYERR = 1; a successful one leaves ERR = POS = BYTE = 0 and keeps ANYERR, unless
the word is CLRS's. The host port's fields are the model's own (log entry 1). -/
def Obligations.FailingCommandWritesOnlyStatus : Prop :=
  ∀ (cmd : Word) (s : State), ∃ t, command cmd s = .next t ∧ samePort s t ∧
    ((t.block.status.err ≠ 0#4 ∧ t.block.status.anyErr = true ∧
        t = { s with block := { s.block with status := t.block.status } }) ∨
     (t.block.status.err = 0#4 ∧ t.block.status.pos = 0#3 ∧ t.block.status.byte = 0x00#8 ∧
        (cmd ≠ 0x00000007#32 → t.block.status.anyErr = s.block.status.anyErr)))

/-- R19: two states that differ only in STATUS are taken by every word to states with the same data registers and the
same ERR, POS and BYTE; a failing one sets ANYERR in both. -/
def Obligations.NoCommandReadsStatus : Prop :=
  ∀ (cmd : Word) (s : State) (st : Status), ∃ t u, command cmd s = .next t ∧
    command cmd { s with block := { s.block with status := st } } = .next u ∧
    u = { t with block := { t.block with status := { t.block.status with anyErr := u.block.status.anyErr } } } ∧
    (t.block.status.err ≠ 0#4 → t.block.status.anyErr = true ∧ u.block.status.anyErr = true)

/-- The same word written again at once leaves the same state: a successful command is repeated (R34), a failing one
fails the same way (R94). -/
def Obligations.RepeatingACommandLeavesTheState : Prop :=
  ∀ (cmd : Word) (s : State), ∃ t, command cmd s = .next t ∧ command cmd t = .next t

-- ==== Laws of the whole machine ====

/-- ANYERR is sticky: a step that clears it served a CLRS or a reset (R16, R69). -/
def Obligations.AnyErrIsSticky : Prop :=
  ∀ s t : State, step s = .next t → s.block.status.anyErr = true → t.block.status.anyErr = false →
    ∃ rest, s.pending = .reset :: rest ∨ s.pending = .access (.write 0#4 0x00000007#32) :: rest

/-- Each register changes only by its own writers: WORD by a host write, DEC or reset; TXTk by a host write of that
character, ENC or reset; RESULT by FWD, INV, CNTX, CNTG or reset; STATUS by a write to CMD or reset. -/
def Obligations.RegistersChangeOnlyByTheirWriters : Prop :=
  ∀ s t : State, step s = .next t →
    (t.block.word ≠ s.block.word → ∃ rest, s.pending = .reset :: rest ∨
      s.pending = .access (.write 2#4 t.block.word) :: rest ∨
      s.pending = .access (.write 0#4 0x00000002#32) :: rest) ∧
    (∀ k : Fin 5, t.block.txt k ≠ s.block.txt k → ∃ rest, s.pending = .reset :: rest ∨
      (∃ v : Word, t.block.txt k = v.extractLsb' 0 8 ∧
        s.pending = .access (.write (BitVec.ofNat 4 (4 + k.val)) v) :: rest) ∨
      s.pending = .access (.write 0#4 0x00000001#32) :: rest) ∧
    (t.block.result ≠ s.block.result → ∃ rest, s.pending = .reset :: rest ∨
      (∃ (imm : Byte) (op : BitVec 4), 3 ≤ op.toNat ∧ op.toNat ≤ 6 ∧
        s.pending = .access (.write 0#4 (0#16 ++ imm ++ 0#4 ++ op)) :: rest)) ∧
    (t.block.status ≠ s.block.status → ∃ rest, s.pending = .reset :: rest ∨
      ∃ cmd, s.pending = .access (.write 0#4 cmd) :: rest)

/-- The invariant of STATUS and RESULT (`State.Inv`) is kept by every step, from every state that meets it. -/
def Obligations.InvariantKeptByStep : Prop :=
  ∀ s t : State, s.Inv → step s = .next t → t.Inv

/-- The state after reset meets the invariant. -/
def Obligations.ResetMeetsInvariant : Prop :=
  State.reset.Inv

/-- A step stops only on an event the spec has a model refuse, and never with a fault: no access, command word or
register content stops it (R26, R47, R93). -/
def Obligations.StepStopsOnlyOnRefusedEvents : Prop :=
  ∀ s : State,
    ((∃ t, step s = .next t) ↔ ∀ e rest, s.pending = e :: rest → e.served = true) ∧
    (∀ r, step s ≠ .fault r)

/-- A host program of any accesses runs to its end, one step for each access: every access is taken in order, the
position advances by one for each and nothing else of the port changes but the values its reads record (R18, R35). The
port's fields and `withProgram` are the model's own (log entries 1 and 2, DESIGN CHOICE). -/
def Obligations.HostProgramRunsToItsEnd : Prop :=
  ∀ (accesses : List Access) (s : State),
    ∃ t, Host.Core.run Sys2Proof.core accesses.length (s.withProgram accesses) = .next t ∧
      t.pending = s.pending ∧ t.position = s.position + accesses.length ∧
      ∃ values, t.reads = s.reads ++ values ∧
        values.length = (accesses.filter (fun a => match a with | .read _ => true | .write _ _ => false)).length

/-- R98: no instance can observe another. A step of instance k leaves every other instance as it was and depends on
instance k alone, and steps of two instances give the same platform in either order. -/
def Obligations.InstancesAreIsolated : Prop :=
  (∀ (p q : Platform) (k : Nat), p.stepAt k = some (.next q) →
    q.length = p.length ∧ ∀ j, j ≠ k → q[j]? = p[j]?) ∧
  (∀ (p p' q : Platform) (k : Nat), p[k]? = p'[k]? → p.stepAt k = some (.next q) →
    ∃ q', p'.stepAt k = some (.next q') ∧ q'[k]? = q[k]?) ∧
  (∀ (p q r : Platform) (j k : Nat), j ≠ k → p.stepAt j = some (.next q) → q.stepAt k = some (.next r) →
    ∃ q', p.stepAt k = some (.next q') ∧ q'.stepAt j = some (.next r))

-- ==== The stream modes ====

/-- R84: the three round trips, for every payload. -/
def Obligations.StreamRoundTrips : Prop :=
  (∀ x : List Byte, x.length % 4 = 0 → ∃ y, encodeStrict x = .ok y ∧ decodeStrict y = .ok x) ∧
  (∀ x : List Byte, ∃ y, encodePadded x = .ok y ∧ decodePadded y = .ok x ∧
    extractCounter y = .ok ((4 - x.length % 4) % 4))

/-- R83: the four length laws. -/
def Obligations.StreamLengthLaws : Prop :=
  (∀ x y : List Byte, encodeStrict x = .ok y → y.length = x.length * 5 / 4) ∧
  (∀ x y : List Byte, decodeStrict y = .ok x → x.length = y.length * 4 / 5) ∧
  (∀ x y : List Byte, encodePadded x = .ok y → y.length = (x.length + 3) / 4 * 5 + 1) ∧
  (∀ (x t : List Byte) (n : Nat), decodePadded t = .ok x → extractCounter t = .ok n →
    n ≤ (t.length - 1) * 4 / 5 ∧ x.length = (t.length - 1) * 4 / 5 - n)

/-- R86: every character of encode_strict's output, and every one but the last of encode_padded's, is in the alphabet; the
last is one of '0'..'3'. -/
def Obligations.StreamOutputAlphabet : Prop :=
  (∀ x y : List Byte, encodeStrict x = .ok y → ∀ c ∈ y, inAlphabet c = true) ∧
  (∀ x y : List Byte, encodePadded x = .ok y → ∃ body d, y = body ++ [d] ∧ (∀ c ∈ body, inAlphabet c = true) ∧
    d ∈ [0x30#8, 0x31#8, 0x32#8, 0x33#8])

/-- R87: for an aligned payload the padded text is the strict text and a '0'; and decode_padded reads the last character of
any text, a strict one too, as the counter. -/
def Obligations.PaddedTextIsStrictTextWithCounter : Prop :=
  (∀ x : List Byte, x.length % 4 = 0 → ∃ y, encodeStrict x = .ok y ∧ encodePadded x = .ok (y ++ [0x30#8])) ∧
  (∀ (x body : List Byte) (d : Byte), encodeStrict x = .ok (body ++ [d]) →
    (d.toNat < 0x30 ∨ 0x33 < d.toNat → decodePadded (body ++ [d]) = .err .invalidCounter (.counter d)) ∧
    (0x30 ≤ d.toNat → d.toNat ≤ 0x33 →
      decodePadded (body ++ [d]) = .err .invalidLength (.length body.length)))

/-- InvalidPadding happens exactly when the text is one counter digit of 1 or more (the corner case of R76). -/
def Obligations.InvalidPaddingOnlyForEmptyBody : Prop :=
  ∀ (t : List Byte) (detail : Detail), decodePadded t = .err .invalidPadding detail ↔
    ∃ d : Byte, t = [d] ∧ 0x31 ≤ d.toNat ∧ d.toNat ≤ 0x33 ∧ detail = .padding (d.toNat - 0x30) 0

/-- decode_strict of an aligned text fails exactly at the first character of the whole text that is not in the alphabet,
and reports its position and byte (R74, R92). -/
def Obligations.DecodeStrictReportsTheFirstInvalid : Prop :=
  ∀ (t : List Byte) (p : Nat) (c : Byte),
    decodeStrict t = .err .invalidCharacter (.char p c) ↔
      t.length % 5 = 0 ∧ t[p]? = some c ∧ inAlphabet c = false ∧
        ∀ (q : Nat) (d : Byte), q < p → t[q]? = some d → inAlphabet d = true

/-- R89: which stream operation and which well-formed or ill-formed command can fail, and with what. -/
def Obligations.FailuresOfEachOperation : Prop :=
  (∀ (p : List Byte) (e : ErrorName) (d : Detail), encodeStrict p = .err e d →
    e = .invalidLength ∧ d = .length p.length) ∧
  (∀ (t : List Byte) (e : ErrorName) (d : Detail), decodeStrict t = .err e d →
    (e = .invalidLength ∧ d = .length t.length) ∨ e = .invalidCharacter) ∧
  (∀ (p : List Byte), ∃ y, encodePadded p = .ok y) ∧
  (∀ (t : List Byte) (e : ErrorName) (d : Detail), decodePadded t = .err e d →
    e = .invalidLength ∨ e = .invalidCharacter ∨ e = .invalidCounter ∨ e = .invalidPadding) ∧
  (∀ (t : List Byte) (e : ErrorName) (d : Detail), extractCounter t = .err e d → e = .invalidCounter) ∧
  (∀ (i : Instr) (s t : State), exec i s = .next t → t.block.status.err ≠ 0#4 →
    ((i = .dec ∨ ∃ imm, i = .inv imm) ∧ t.block.status.err = 2#4) ∨
    ((∃ imm, i = .cntx imm) ∧ t.block.status.err = 3#4) ∨
    ((∃ imm : Byte, i = .fwd imm ∧ 85 ≤ imm.toNat) ∧ t.block.status.err = 5#4)) ∧
  (∀ (cmd : Word) (c : IllegalCause) (s : State), decode cmd = .illegal c →
    ∃ t, command cmd s = .next t ∧ t.block.status.err = 5#4)

/-- R85: the decoders accept an overflow block (`%nSc1`) and a text whose dropped filler is not zero (`Hello3`), which no
payload encodes to; so decode_padded is not injective, and encoding what it gives need not give the text back. R85's third
item, counter 0 after the body of an unaligned payload (`H5.hN0`), decodes too: its text is another payload's encoding. -/
def Obligations.DecodersAcceptMoreThanEncodersProduce : Prop :=
  decodeStrict [0x25#8, 0x6E#8, 0x53#8, 0x63#8, 0x31#8] = .ok [0x00#8, 0x00#8, 0x00#8, 0x00#8] ∧
  encodeStrict [0x00#8, 0x00#8, 0x00#8, 0x00#8] = .ok [0x30#8, 0x30#8, 0x30#8, 0x30#8, 0x30#8] ∧
  (∀ x : List Byte, encodeStrict x ≠ .ok [0x25#8, 0x6E#8, 0x53#8, 0x63#8, 0x31#8]) ∧
  decodePadded [0x48#8, 0x65#8, 0x6C#8, 0x6C#8, 0x6F#8, 0x33#8] = .ok [0x86#8] ∧
  (∀ x : List Byte, encodePadded x ≠ .ok [0x48#8, 0x65#8, 0x6C#8, 0x6C#8, 0x6F#8, 0x33#8]) ∧
  encodePadded [0x86#8] = .ok [0x48#8, 0x35#8, 0x2E#8, 0x68#8, 0x4E#8, 0x33#8] ∧
  decodePadded [0x48#8, 0x35#8, 0x2E#8, 0x68#8, 0x4E#8, 0x33#8] = .ok [0x86#8] ∧
  decodePadded [0x48#8, 0x35#8, 0x2E#8, 0x68#8, 0x4E#8, 0x30#8] = .ok [0x86#8, 0x00#8, 0x00#8, 0x00#8] ∧
  encodePadded [0x86#8, 0x00#8, 0x00#8, 0x00#8] = .ok [0x48#8, 0x35#8, 0x2E#8, 0x68#8, 0x4E#8, 0x30#8]

-- ==== The reference host procedures ====

/-- R78: the procedure, run on the machine from any state, returns encode_strict(p), with seven accesses for each block and
RESULT unchanged. That nothing falls between its accesses and the pending events stay is the model's (log entry 12, DESIGN
CHOICE), and so is the position that counts them (log entry 1, DESIGN CHOICE). -/
def Obligations.EncodeStrictProcedureRefines : Prop :=
  ∀ (p : List Byte) (s : State), ∃ t, (encodeStrictProcedure p).run s = some (encodeStrict p, t) ∧
    t.pending = s.pending ∧ t.block.result = s.block.result ∧
    t.position = s.position + (if p.length % 4 = 0 then 7 * (p.length / 4) else 0)

/-- R79: the procedure, run on the machine from any state, returns decode_strict(t), with RESULT unchanged. That
nothing falls between its accesses and the pending events stay is the model's (log entry 12, DESIGN CHOICE). -/
def Obligations.DecodeStrictProcedureRefines : Prop :=
  ∀ (text : List Byte) (s : State), ∃ t, (decodeStrictProcedure text).run s = some (decodeStrict text, t) ∧
    t.pending = s.pending ∧ t.block.result = s.block.result

/-- R80: the procedure, run on the machine from any state, returns encode_padded(p). That
nothing falls between its accesses and the pending events stay is the model's (log entry 12, DESIGN CHOICE). -/
def Obligations.EncodePaddedProcedureRefines : Prop :=
  ∀ (p : List Byte) (s : State), ∃ t, (encodePaddedProcedure p).run s = some (encodePadded p, t) ∧
    t.pending = s.pending

/-- R81: the procedure, run on the machine from any state, returns decode_padded(t). That
nothing falls between its accesses and the pending events stay is the model's (log entry 12, DESIGN CHOICE). -/
def Obligations.DecodePaddedProcedureRefines : Prop :=
  ∀ (text : List Byte) (s : State), ∃ t, (decodePaddedProcedure text).run s = some (decodePadded text, t) ∧
    t.pending = s.pending

/-- R82: the procedure, run on the machine from any state, returns extract_counter(t), and touches neither WORD nor
TXT. That
nothing falls between its accesses and the pending events stay is the model's (log entry 12, DESIGN CHOICE). -/
def Obligations.ExtractCounterProcedureRefines : Prop :=
  ∀ (text : List Byte) (s : State), ∃ t, (extractCounterProcedure text).run s = some (extractCounter text, t) ∧
    t.pending = s.pending ∧ t.block.word = s.block.word ∧ t.block.txt = s.block.txt

-- ==== The assembler syntax ====

/-- R49: the encoding formula, the examples, an operand outside 0..255 rejected and every other one accepted (FWD's
85..255 among them), and an operand on NOP, ENC, DEC or CLRS rejected. -/
def Obligations.AssemblerEncodesCommands : Prop :=
  (∀ i : Instr, encode i = i.opcode.setWidth 32 ||| (i.imm8.setWidth 32 <<< 8)) ∧
  assembleCommand ['E', 'N', 'C'] = some 0x00000001#32 ∧
  assembleCommand ['D', 'E', 'C'] = some 0x00000002#32 ∧
  assembleCommand ['F', 'W', 'D', ' ', '4', '3'] = some 0x00002B03#32 ∧
  assembleCommand ['I', 'N', 'V', ' ', '\'', 'H', '\''] = some 0x00004804#32 ∧
  assembleCommand ['C', 'N', 'T', 'X', ' ', '\'', '3', '\''] = some 0x00003305#32 ∧
  assembleCommand ['C', 'N', 'T', 'G', ' ', '5'] = some 0x00000506#32 ∧
  assembleCommand ['C', 'L', 'R', 'S'] = some 0x00000007#32 ∧
  assembleCommand ['I', 'N', 'V', ' ', '2', '5', '6'] = none ∧
  (∀ (t : Token) (n : Nat), operandOf t = some n →
    commandOfTokens [.name ['F', 'W', 'D'], t] = (if n ≤ 255 then some (.fwd (BitVec.ofNat 8 n)) else none) ∧
    commandOfTokens [.name ['I', 'N', 'V'], t] = (if n ≤ 255 then some (.inv (BitVec.ofNat 8 n)) else none) ∧
    commandOfTokens [.name ['C', 'N', 'T', 'X'], t] = (if n ≤ 255 then some (.cntx (BitVec.ofNat 8 n)) else none) ∧
    commandOfTokens [.name ['C', 'N', 'T', 'G'], t] = (if n ≤ 255 then some (.cntg (BitVec.ofNat 8 n)) else none)) ∧
  (∀ t : Token, commandOfTokens [.name ['N', 'O', 'P'], t] = none ∧ commandOfTokens [.name ['E', 'N', 'C'], t] = none ∧
    commandOfTokens [.name ['D', 'E', 'C'], t] = none ∧ commandOfTokens [.name ['C', 'L', 'R', 'S'], t] = none) ∧
  (∀ m ∈ [['N', 'O', 'P'], ['E', 'N', 'C'], ['D', 'E', 'C'], ['C', 'L', 'R', 'S']],
    assembleCommand (m ++ [' ', '0']) = none) ∧
  assembleCommand ['F', 'W', 'D', ' ', '8', '5'] = some 0x00005503#32 ∧
  assembleCommand ['F', 'W', 'D', ' ', '0', 'x', 'F', 'F'] = some 0x0000FF03#32

/-- R51: the expansion of each pseudo-instruction, WRBYTES with any byte operands (numbers or quoted characters), and what
running it does: WRTXT leaves the five characters in TXT, RDTXT reads the five characters in order, WRBYTES leaves the
big-endian block value in WORD, CMD is the write of the encoding. The model's own, and not R51's: the port's pending
events, position and reads (log entry 1, DESIGN CHOICE), that a program runs by standing in pending (log entry 2, DESIGN
CHOICE), and how a byte operand of WRBYTES is written (log entry 14, DESIGN CHOICE). -/
def Obligations.PseudoInstructionEffects : Prop :=
  (∀ c0 c1 c2 c3 c4 : Byte,
    accessesOfTokens [.name ['W', 'R', 'T', 'X', 'T'], .text [c0, c1, c2, c3, c4]] =
      some [.write 4#4 (c0.setWidth 32), .write 5#4 (c1.setWidth 32), .write 6#4 (c2.setWidth 32),
        .write 7#4 (c3.setWidth 32), .write 8#4 (c4.setWidth 32)]) ∧
  accessesOfTokens [.name ['R', 'D', 'T', 'X', 'T']] =
    some [.read 4#4, .read 5#4, .read 6#4, .read 7#4, .read 8#4] ∧
  (∀ (t0 t1 t2 t3 : Token) (b0 b1 b2 b3 : Byte), byteOperandOf t0 = some b0 → byteOperandOf t1 = some b1 →
    byteOperandOf t2 = some b2 → byteOperandOf t3 = some b3 →
    accessesOfTokens [.name ['W', 'R', 'B', 'Y', 'T', 'E', 'S'], t0, .comma, t1, .comma, t2, .comma, t3] =
      some [.write 2#4 (b0 ++ b1 ++ b2 ++ b3)]) ∧
  (∀ (tokens : List Token) (i : Instr), commandOfTokens tokens = some i →
    accessesOfTokens (.name ['C', 'M', 'D'] :: tokens) = some [.write 0#4 (encode i)]) ∧
  (∀ (c0 c1 c2 c3 c4 : Byte) (s : State),
    Host.Core.run Sys2Proof.core 5 (s.withProgram (writeTextAccesses c0 c1 c2 c3 c4)) =
      .next { s with block := { s.block with txt0 := c0, txt1 := c1, txt2 := c2, txt3 := c3, txt4 := c4 },
                     position := s.position + 5 }) ∧
  (∀ s : State, Host.Core.run Sys2Proof.core 5 (s.withProgram readTextAccesses) =
      .next { s with position := s.position + 5,
                     reads := s.reads ++ [zext32 s.block.txt0, zext32 s.block.txt1, zext32 s.block.txt2,
                       zext32 s.block.txt3, zext32 s.block.txt4] }) ∧
  (∀ (b0 b1 b2 b3 : Byte) (s : State),
    Host.Core.run Sys2Proof.core 1 (s.withProgram [writeBytesAccess b0 b1 b2 b3]) =
      .next { s with block := { s.block with
                       word := BitVec.ofNat 32 (b0.toNat * 2 ^ 24 + b1.toNat * 2 ^ 16 + b2.toNat * 2 ^ 8 + b3.toNat) },
                     position := s.position + 1 }) ∧
  (∀ (i : Instr) (s : State), Host.Core.run Sys2Proof.core 1 (s.withProgram [commandAccess i]) =
      command (encode i) { s with position := s.position + 1 })
end

