-- ==== Sys2Proof/Laws/Assembler.lean ====
section
/-! SUPPORT. The keyword and the register each spelling names, and the operands of a token, said once. -/

namespace Sys2Proof.Machine

@[simp] theorem keywordOf_nop : keywordOf ['N', 'O', 'P'] = some .nop := by decide
@[simp] theorem keywordOf_enc : keywordOf ['E', 'N', 'C'] = some .enc := by decide
@[simp] theorem keywordOf_dec : keywordOf ['D', 'E', 'C'] = some .dec := by decide
@[simp] theorem keywordOf_fwd : keywordOf ['F', 'W', 'D'] = some .fwd := by decide
@[simp] theorem keywordOf_inv : keywordOf ['I', 'N', 'V'] = some .inv := by decide
@[simp] theorem keywordOf_cntx : keywordOf ['C', 'N', 'T', 'X'] = some .cntx := by decide
@[simp] theorem keywordOf_cntg : keywordOf ['C', 'N', 'T', 'G'] = some .cntg := by decide
@[simp] theorem keywordOf_clrs : keywordOf ['C', 'L', 'R', 'S'] = some .clrs := by decide
@[simp] theorem keywordOf_wr : keywordOf ['W', 'R'] = some .wr := by decide
@[simp] theorem keywordOf_rd : keywordOf ['R', 'D'] = some .rd := by decide
@[simp] theorem keywordOf_cmd : keywordOf ['C', 'M', 'D'] = some .cmd := by decide
@[simp] theorem keywordOf_wrtxt : keywordOf ['W', 'R', 'T', 'X', 'T'] = some .wrtxt := by decide
@[simp] theorem keywordOf_rdtxt : keywordOf ['R', 'D', 'T', 'X', 'T'] = some .rdtxt := by decide
@[simp] theorem keywordOf_wrbytes : keywordOf ['W', 'R', 'B', 'Y', 'T', 'E', 'S'] = some .wrbytes := by decide

@[simp] theorem registerOf_cmd : registerOf ['C', 'M', 'D'] = some .cmd := by decide
@[simp] theorem registerOf_status : registerOf ['S', 'T', 'A', 'T', 'U', 'S'] = some .status := by decide
@[simp] theorem registerOf_word : registerOf ['W', 'O', 'R', 'D'] = some .word := by decide
@[simp] theorem registerOf_result : registerOf ['R', 'E', 'S', 'U', 'L', 'T'] = some .result := by decide
@[simp] theorem registerOf_txt0 : registerOf ['T', 'X', 'T', '0'] = some (.txt 0) := by decide
@[simp] theorem registerOf_txt1 : registerOf ['T', 'X', 'T', '1'] = some (.txt 1) := by decide
@[simp] theorem registerOf_txt2 : registerOf ['T', 'X', 'T', '2'] = some (.txt 2) := by decide
@[simp] theorem registerOf_txt3 : registerOf ['T', 'X', 'T', '3'] = some (.txt 3) := by decide
@[simp] theorem registerOf_txt4 : registerOf ['T', 'X', 'T', '4'] = some (.txt 4) := by decide

/-- A quoted character is a byte operand, whatever its code. -/
@[simp] theorem byteOperandOf_chr (c : Byte) : byteOperandOf (.chr c) = some c := by
  simp [byteOperandOf, operandOf, c.isLt]

end Sys2Proof.Machine
end

