-- ==== Sys2Proof/Laws/Operands.lean ====
section
/-! SUPPORT. What reading a command's operands answers, said once: the least invalid character of a text, and the four
fields a command word is made of. -/

namespace Sys2Proof.Machine

/-- There is no invalid character exactly when every character is in the alphabet. -/
theorem firstInvalid_eq_none_iff (t : Fin Config.blockChars → Byte) :
    firstInvalid t = none ↔ ∀ k, (invRom (t k)).valid = true := by
  simp [firstInvalid, charIndices, List.find?_eq_none, Fin.forall_fin_succ]

/-- The invalid character found is the least one (spec/41_block_transform.md R61). -/
theorem firstInvalid_eq_some_iff (t : Fin Config.blockChars → Byte) (j : Fin Config.blockChars) :
    firstInvalid t = some j ↔ (invRom (t j)).valid = false ∧ ∀ k, k < j → (invRom (t k)).valid = true := by
  have least : ∀ b0 b1 b2 b3 b4 : Bool, ∀ j : Fin Config.blockChars,
      charIndices.find? (fun k => !(![b0, b1, b2, b3, b4] k)) = some j ↔
        ![b0, b1, b2, b3, b4] j = false ∧ ∀ k, k < j → ![b0, b1, b2, b3, b4] k = true := by
    decide
  have as_vector : (fun k => (invRom (t k)).valid) =
      ![(invRom (t 0)).valid, (invRom (t 1)).valid, (invRom (t 2)).valid, (invRom (t 3)).valid,
        (invRom (t 4)).valid] := by
    funext k
    fin_cases k <;> rfl
  have h := least (invRom (t 0)).valid (invRom (t 1)).valid (invRom (t 2)).valid (invRom (t 3)).valid
    (invRom (t 4)).valid j
  rw [← as_vector] at h
  exact h

end Sys2Proof.Machine

namespace Sys2Proof

/-- A command word is its four fields (spec/30_encoding.md R41). -/
theorem fields_reassemble (cmd : Word) : rsv1Field cmd ++ imm8Field cmd ++ rsv0Field cmd ++ opField cmd = cmd := by
  apply BitVec.eq_of_getLsbD_eq
  intro i hi
  simp only [rsv1Field, imm8Field, rsv0Field, opField, BitVec.getLsbD_append, BitVec.getLsbD_extractLsb']
  by_cases h4 : i < 4
  · simp [h4]
  · by_cases h8 : i - 4 < 4
    · simp [h4, h8, show 4 + (i - 4) = i by omega]
    · by_cases h16 : i - 4 - 4 < 8
      · simp [h4, h8, h16, show 8 + (i - 4 - 4) = i by omega]
      · simp [h4, h8, h16, show i - 4 - 4 - 8 < 16 by omega, show 16 + (i - 4 - 4 - 8) = i by omega]

end Sys2Proof
end

