-- ==== Sys2Proof/Laws/State.lean ====
section
/-! SUPPORT. One lemma for each field and each update of the state, true by unfolding, so that no later proof unfolds a
record update. -/

namespace Sys2Proof.Machine

@[simp] theorem Block.txt_zero (b : Block) : b.txt 0 = b.txt0 := rfl
@[simp] theorem Block.txt_one (b : Block) : b.txt 1 = b.txt1 := rfl
@[simp] theorem Block.txt_two (b : Block) : b.txt 2 = b.txt2 := rfl
@[simp] theorem Block.txt_three (b : Block) : b.txt 3 = b.txt3 := rfl
@[simp] theorem Block.txt_four (b : Block) : b.txt 4 = b.txt4 := rfl

@[simp] theorem setWord_block (s : State) (v : Word) : (s.setWord v).block = { s.block with word := v } := rfl
@[simp] theorem setWord_pending (s : State) (v : Word) : (s.setWord v).pending = s.pending := rfl
@[simp] theorem setWord_position (s : State) (v : Word) : (s.setWord v).position = s.position := rfl
@[simp] theorem setWord_reads (s : State) (v : Word) : (s.setWord v).reads = s.reads := rfl

@[simp] theorem setResult_block (s : State) (v : Byte) : (s.setResult v).block = { s.block with result := v } := rfl
@[simp] theorem setResult_pending (s : State) (v : Byte) : (s.setResult v).pending = s.pending := rfl
@[simp] theorem setResult_position (s : State) (v : Byte) : (s.setResult v).position = s.position := rfl
@[simp] theorem setResult_reads (s : State) (v : Byte) : (s.setResult v).reads = s.reads := rfl

@[simp] theorem setStatus_block (s : State) (st : Status) :
    (s.setStatus st).block = { s.block with status := st } := rfl
@[simp] theorem setStatus_pending (s : State) (st : Status) : (s.setStatus st).pending = s.pending := rfl
@[simp] theorem setStatus_position (s : State) (st : Status) : (s.setStatus st).position = s.position := rfl
@[simp] theorem setStatus_reads (s : State) (st : Status) : (s.setStatus st).reads = s.reads := rfl
@[simp] theorem setStatus_setStatus (s : State) (st st' : Status) :
    (s.setStatus st).setStatus st' = s.setStatus st' := rfl

@[simp] theorem setText_block (s : State) (t : Fin Config.blockChars → Byte) :
    (s.setText t).block = { s.block with txt0 := t 0, txt1 := t 1, txt2 := t 2, txt3 := t 3, txt4 := t 4 } := rfl
@[simp] theorem setText_pending (s : State) (t : Fin Config.blockChars → Byte) : (s.setText t).pending = s.pending := rfl
@[simp] theorem setText_position (s : State) (t : Fin Config.blockChars → Byte) :
    (s.setText t).position = s.position := rfl
@[simp] theorem setText_reads (s : State) (t : Fin Config.blockChars → Byte) : (s.setText t).reads = s.reads := rfl

/-- After TXT[k] <- t k for every k, TXT reads as t. -/
theorem setText_txt (s : State) (t : Fin Config.blockChars → Byte) : (s.setText t).block.txt = t := by
  funext k
  match k with
  | 0 => rfl
  | 1 => rfl
  | 2 => rfl
  | 3 => rfl
  | 4 => rfl

/-- After TXT[k] <- v, character k reads as v and the other four as before. -/
theorem setTxt_txt (s : State) (k j : Fin Config.blockChars) (v : Byte) :
    (s.setTxt k v).block.txt j = if j = k then v else s.block.txt j := by
  rw [State.setTxt, setText_txt]

@[simp] theorem setTxt_word (s : State) (k : Fin Config.blockChars) (v : Byte) :
    (s.setTxt k v).block.word = s.block.word := rfl
@[simp] theorem setTxt_result (s : State) (k : Fin Config.blockChars) (v : Byte) :
    (s.setTxt k v).block.result = s.block.result := rfl
@[simp] theorem setTxt_status (s : State) (k : Fin Config.blockChars) (v : Byte) :
    (s.setTxt k v).block.status = s.block.status := rfl
@[simp] theorem setTxt_pending (s : State) (k : Fin Config.blockChars) (v : Byte) :
    (s.setTxt k v).pending = s.pending := rfl
@[simp] theorem setTxt_position (s : State) (k : Fin Config.blockChars) (v : Byte) :
    (s.setTxt k v).position = s.position := rfl
@[simp] theorem setTxt_reads (s : State) (k : Fin Config.blockChars) (v : Byte) : (s.setTxt k v).reads = s.reads := rfl

@[simp] theorem advance_block (s : State) : s.advance.block = s.block := rfl
@[simp] theorem advance_pending (s : State) : s.advance.pending = s.pending := rfl
@[simp] theorem advance_position (s : State) : s.advance.position = s.position + 1 := rfl
@[simp] theorem advance_reads (s : State) : s.advance.reads = s.reads := rfl

@[simp] theorem record_block (s : State) (v : Word) : (s.record v).block = s.block := rfl
@[simp] theorem record_pending (s : State) (v : Word) : (s.record v).pending = s.pending := rfl
@[simp] theorem record_position (s : State) (v : Word) : (s.record v).position = s.position := rfl
@[simp] theorem record_reads (s : State) (v : Word) : (s.record v).reads = s.reads ++ [v] := rfl

@[simp] theorem applyReset_block (s : State) : s.applyReset.block = Block.reset := rfl
@[simp] theorem applyReset_pending (s : State) : s.applyReset.pending = s.pending := rfl
@[simp] theorem applyReset_position (s : State) : s.applyReset.position = s.position := rfl
@[simp] theorem applyReset_reads (s : State) : s.applyReset.reads = s.reads := rfl

/-- The four STATUS fields after a successful command. -/
@[simp] theorem succeed_err (st : Status) : st.succeed.err = 0#4 := rfl
@[simp] theorem succeed_pos (st : Status) : st.succeed.pos = 0#3 := rfl
@[simp] theorem succeed_byte (st : Status) : st.succeed.byte = 0x00#8 := rfl
@[simp] theorem succeed_anyErr (st : Status) : st.succeed.anyErr = st.anyErr := rfl

/-- The four STATUS fields after a failing command. -/
@[simp] theorem failed_err (e : ErrorName) (p : BitVec 3) (b : Byte) : (Status.failed e p b).err = e.code := rfl
@[simp] theorem failed_pos (e : ErrorName) (p : BitVec 3) (b : Byte) : (Status.failed e p b).pos = p := rfl
@[simp] theorem failed_byte (e : ErrorName) (p : BitVec 3) (b : Byte) : (Status.failed e p b).byte = b := rfl
@[simp] theorem failed_anyErr (e : ErrorName) (p : BitVec 3) (b : Byte) : (Status.failed e p b).anyErr = true := rfl

end Sys2Proof.Machine
end

