-- ==== Sys2Proof/Laws/Ops.lean ====
section
/-! SUPPORT. What each shared operation can do, said once. -/

namespace Sys2Proof.Machine

/-- `ok()` writes STATUS and goes on, whatever the state (spec/00_scope.md R9). -/
theorem ok_eq_next_iff (s t : State) : ok s = .next t ↔ t = s.setStatus s.block.status.succeed := by
  simp only [ok, Host.Outcome.next.injEq]
  exact eq_comm

/-- `raise` writes STATUS and goes on, whatever the state (spec/00_scope.md R9, spec/60_exceptions.md R90). -/
theorem raise_eq_next_iff (e : ErrorName) (pos : BitVec 3) (byte : Byte) (s t : State) :
    raise e pos byte s = .next t ↔ t = s.setStatus (Status.failed e pos byte) := by
  simp only [raise, Host.Outcome.next.injEq]
  exact eq_comm

/-- What a command's own effect can be before `ok()`: nothing, or one write of WORD, TXT or RESULT
(spec/10_state.md R21). -/
inductive DataWrite : State → State → Prop where
  | nothing (s : State) : DataWrite s s
  | word (s : State) (v : Word) : DataWrite s (s.setWord v)
  | text (s : State) (t : Fin Config.blockChars → Byte) : DataWrite s (s.setText t)
  | result (s : State) (v : Byte) : DataWrite s (s.setResult v)

/-- Every command goes on, and either succeeds after one data write, or is CLRS, or fails and writes STATUS alone. -/
theorem exec_cases (i : Instr) (s : State) :
    (∃ d, DataWrite s d ∧ exec i s = ok d) ∨
    (i = .clrs ∧ exec i s = .next (s.setStatus Status.cleared)) ∨
    (∃ e pos byte, exec i s = raise e pos byte s) := by
  cases i with
  | nop => exact .inl ⟨s, .nothing s, rfl⟩
  | enc => exact .inl ⟨_, .text s _, rfl⟩
  | dec =>
    simp only [exec, execDec]
    split
    · exact .inr (.inr ⟨_, _, _, rfl⟩)
    · exact .inl ⟨_, .word s _, rfl⟩
  | fwd imm =>
    simp only [exec, execFwd]
    split
    · exact .inl ⟨_, .result s _, rfl⟩
    · exact .inr (.inr ⟨_, _, _, rfl⟩)
  | inv imm =>
    simp only [exec, execInv]
    split
    · exact .inl ⟨_, .result s _, rfl⟩
    · exact .inr (.inr ⟨_, _, _, rfl⟩)
  | cntx imm =>
    simp only [exec, execCntx]
    split
    · exact .inl ⟨_, .result s _, rfl⟩
    · exact .inr (.inr ⟨_, _, _, rfl⟩)
  | cntg imm => exact .inl ⟨_, .result s _, rfl⟩
  | clrs => exact .inr (.inl ⟨rfl, rfl⟩)

/-- Every command goes on and leaves the host port alone. -/
theorem exec_goes_on (i : Instr) (s : State) :
    ∃ t, exec i s = .next t ∧ t.pending = s.pending ∧ t.position = s.position ∧ t.reads = s.reads := by
  obtain ⟨d, hd, h⟩ | ⟨-, h⟩ | ⟨e, pos, byte, h⟩ := exec_cases i s
  · refine ⟨_, h, ?_⟩
    cases hd <;> exact ⟨rfl, rfl, rfl⟩
  · exact ⟨_, h, rfl, rfl, rfl⟩
  · exact ⟨_, h, rfl, rfl, rfl⟩

/-- A write to CMD executes a legal command, or records an IllegalCommand (spec/30_encoding.md R48). -/
theorem command_cases (cmd : Word) (s : State) :
    (∃ i, decode cmd = .legal i ∧ command cmd s = exec i s) ∨
    (∃ c, decode cmd = .illegal c ∧ command cmd s = raise .illegalCommand c.subcause (c.detail cmd) s) := by
  unfold command
  cases h : decode cmd with
  | legal i => exact .inl ⟨i, rfl, rfl⟩
  | illegal c => exact .inr ⟨c, rfl, rfl⟩

end Sys2Proof.Machine
end

