-- ==== Sys2Proof/Laws/PerInstr.lean ====
section
/-! SUPPORT. The families of LAWS.json: one lemma for each constructor of Instr. `EncodedFields` says what an encoded
command holds in each field of the command word (spec/30_encoding.md R41). -/

namespace Sys2Proof.Laws.EncodedFields

/-- OP and IMM8 of the encoded word are the command's, and both reserved fields are 0 (R41). -/
def Statement (i : Instr) : Prop :=
  opField (encode i) = i.opcode ∧ rsv0Field (encode i) = 0#4 ∧ imm8Field (encode i) = i.imm8 ∧
    rsv1Field (encode i) = 0#16

/-- The four fields of R41's pattern string. -/
theorem of_pattern (imm : Byte) (op : BitVec 4) :
    opField (0#16 ++ imm ++ 0#4 ++ op) = op ∧ rsv0Field (0#16 ++ imm ++ 0#4 ++ op) = 0#4 ∧
      imm8Field (0#16 ++ imm ++ 0#4 ++ op) = imm ∧ rsv1Field (0#16 ++ imm ++ 0#4 ++ op) = 0#16 := by
  refine ⟨?_, ?_, ?_, ?_⟩ <;>
    simp only [opField, rsv0Field, imm8Field, rsv1Field, BitVec.extractLsb'_append_eq_ite] <;> simp

theorem nop : Statement .nop := of_pattern _ _
theorem enc : Statement .enc := of_pattern _ _
theorem dec : Statement .dec := of_pattern _ _
theorem fwd (imm : Byte) : Statement (.fwd imm) := of_pattern _ _
theorem inv (imm : Byte) : Statement (.inv imm) := of_pattern _ _
theorem cntx (imm : Byte) : Statement (.cntx imm) := of_pattern _ _
theorem cntg (imm : Byte) : Statement (.cntg imm) := of_pattern _ _
theorem clrs : Statement .clrs := of_pattern _ _

end Sys2Proof.Laws.EncodedFields
end

