-- ==== Sys2Proof/Laws/Window.lean ====
section
/-! SUPPORT. What the window and one step can do, said once, and the laws of a host program's run. -/

namespace Sys2Proof.Machine

/-- RegWrite always goes on: it executes a command (index 0), writes WORD (index 2) or one TXT register (indices 4 to
8), or does nothing (spec/20_memory.md R25). -/
theorem regWrite_cases (idx : BitVec 4) (v : Word) (s : State) :
    (idx = 0#4 ∧ regWrite idx v s = command v s) ∨
    (idx = 2#4 ∧ regWrite idx v s = .next (s.setWord v)) ∨
    (∃ k : Fin Config.blockChars, idx = BitVec.ofNat 4 (4 + k.val) ∧
      regWrite idx v s = .next (s.setTxt k (lowByte v))) ∨
    ((idx = 1#4 ∨ idx = 3#4 ∨ 9 ≤ idx.toNat) ∧ regWrite idx v s = .next s) := by
  have of_toNat : ∀ n, idx.toNat = n → idx = BitVec.ofNat 4 n := by
    intro n h
    rw [← h, BitVec.ofNat_toNat, BitVec.setWidth_eq]
  unfold regWrite
  split
  · exact .inl ⟨of_toNat 0 ‹_›, rfl⟩
  · exact .inr (.inl ⟨of_toNat 2 ‹_›, rfl⟩)
  · exact .inr (.inr (.inl ⟨0, of_toNat 4 ‹_›, rfl⟩))
  · exact .inr (.inr (.inl ⟨1, of_toNat 5 ‹_›, rfl⟩))
  · exact .inr (.inr (.inl ⟨2, of_toNat 6 ‹_›, rfl⟩))
  · exact .inr (.inr (.inl ⟨3, of_toNat 7 ‹_›, rfl⟩))
  · exact .inr (.inr (.inl ⟨4, of_toNat 8 ‹_›, rfl⟩))
  · rename_i n0 n2 n4 n5 n6 n7 n8
    refine .inr (.inr (.inr ⟨?_, rfl⟩))
    by_cases h1 : idx.toNat = 1
    · exact .inl (of_toNat 1 h1)
    · by_cases h3 : idx.toNat = 3
      · exact .inr (.inl (of_toNat 3 h3))
      · refine .inr (.inr (Nat.not_lt.mp fun h => ?_))
        interval_cases idx.toNat <;> simp_all

/-- A write to CMD goes on and leaves the host port alone, whatever the word. -/
theorem command_goes_on (cmd : Word) (s : State) :
    ∃ t, command cmd s = .next t ∧ t.pending = s.pending ∧ t.position = s.position ∧ t.reads = s.reads := by
  obtain ⟨i, -, h⟩ | ⟨c, -, h⟩ := command_cases cmd s
  · rw [h]
    exact exec_goes_on i s
  · exact ⟨_, h, rfl, rfl, rfl⟩

/-- RegWrite goes on and leaves the host port alone, whatever the index and word. -/
theorem regWrite_goes_on (idx : BitVec 4) (v : Word) (s : State) :
    ∃ t, regWrite idx v s = .next t ∧ t.pending = s.pending ∧ t.position = s.position ∧ t.reads = s.reads := by
  obtain ⟨-, h⟩ | ⟨-, h⟩ | ⟨k, -, h⟩ | ⟨-, h⟩ := regWrite_cases idx v s
  · rw [h]
    exact command_goes_on v s
  all_goals exact ⟨_, h, rfl, rfl, rfl⟩

/-- Everything a step can do: nothing (no event), one access, the reset, or a refusal. -/
theorem step_cases (s : State) :
    (s.pending = [] ∧ step s = .next s) ∨
    (∃ idx rest, s.pending = .access (.read idx) :: rest ∧
      step s = .next ({ s with pending := rest }.record (regRead idx s.block)).advance) ∨
    (∃ idx v rest, s.pending = .access (.write idx v) :: rest ∧
      step s = regWrite idx v ({ s with pending := rest }).advance) ∨
    (∃ rest, s.pending = .reset :: rest ∧ step s = .next ({ s with pending := rest }).applyReset) ∨
    (∃ r, step s = .refused r) := by
  unfold step
  cases h : s.pending with
  | nil => exact .inl ⟨rfl, rfl⟩
  | cons e rest =>
    match e with
    | .access (.read idx) => exact .inr (.inl ⟨idx, rest, rfl, rfl⟩)
    | .access (.write idx v) => exact .inr (.inr (.inl ⟨idx, v, rest, rfl, rfl⟩))
    | .reset => exact .inr (.inr (.inr (.inl ⟨rest, rfl, rfl⟩)))
    | .otherShape _ => exact .inr (.inr (.inr (.inr ⟨_, rfl⟩)))
    | .secondHost _ => exact .inr (.inr (.inr (.inr ⟨_, rfl⟩)))
    | .duringReset _ => exact .inr (.inr (.inr (.inr ⟨_, rfl⟩)))

/-- A run of one step more goes on with the next state of its first step. -/
theorem core_run_succ {s t : State} (k : Nat) (h : step s = .next t) :
    Host.Core.run Sys2Proof.core (k + 1) s = Host.Core.run Sys2Proof.core k t := by
  have h' : Sys2Proof.core.step s = .next t := h
  simp only [Host.Core.run, h']

/-- A run of no steps stays where it is. -/
theorem core_run_zero (s : State) : Host.Core.run Sys2Proof.core 0 s = .next s := rfl

/-- An issued write is RegWrite at the next position; the events still to come stay. -/
theorem issue_write (idx : BitVec 4) (v : Word) (s : State) :
    issue (.write idx v) s = regWrite idx v s.advance := rfl

/-- An issued read records the register's value at the next position; the events still to come stay. -/
theorem issue_read (idx : BitVec 4) (s : State) :
    issue (.read idx) s = .next (s.record (regRead idx s.block)).advance := rfl

/-- The value a program reads is the register's. -/
theorem lastRead_after_read (idx : BitVec 4) (s : State) :
    lastRead (s.record (regRead idx s.block)).advance = regRead idx s.block := by
  simp [lastRead]

/-- A read of a host program: it goes on with the register's value. -/
theorem run_rd {α : Type} (idx : BitVec 4) (next : Word → HostProgram α) (s : State) :
    (HostProgram.rd idx next).run s = (next (regRead idx s.block)).run (s.record (regRead idx s.block)).advance := by
  simp only [HostProgram.run, issue_read, lastRead_after_read]

/-- A write of a host program whose RegWrite answers a next state. -/
theorem run_wr {α : Type} (idx : BitVec 4) (v : Word) (next : HostProgram α) (s t : State)
    (h : regWrite idx v s.advance = .next t) : (HostProgram.wr idx v next).run s = next.run t := by
  simp only [HostProgram.run, issue_write, h]

/-- Running one program after another runs the first, then the second with its result. -/
theorem run_bind {α β : Type} (p : HostProgram α) (f : α → HostProgram β) (s : State) :
    (p.bind f).run s = (p.run s).bind (fun r => (f r.1).run r.2) := by
  induction p generalizing s with
  | done a => rfl
  | wr idx v next ih =>
    simp only [HostProgram.bind, HostProgram.run]
    split <;> simp [ih]
  | rd idx next ih =>
    simp only [HostProgram.bind, HostProgram.run]
    split <;> simp [ih]

end Sys2Proof.Machine
end

