-- ==== Sys2Proof/Tests/Slice0.lean ====
section
/-! SUPPORT. The model's own tests. Every expected result is a worked example, corner case or vector of spec/ (named in
the comment over each test), none is the model's own answer. The last part gives, for every statement that has
hypotheses, a named witness that meets them. -/

open Sys2Proof Sys2Proof.Machine

namespace Sys2Proof.Tests

/-- The registers after an outcome that goes on. -/
def nextBlock : Host.Outcome State Fault Refusal → Option Block
  | .next s => some s.block
  | .fault _ => none
  | .refused _ => none

/-- A machine with these registers, and a host that has issued nothing. -/
def machineOf (b : Block) : State := { State.reset with block := b }

/-- The registers after reset, with these five characters in TXT. -/
def textBlock (c0 c1 c2 c3 c4 : Byte) : Block :=
  { Block.reset with txt0 := c0, txt1 := c1, txt2 := c2, txt3 := c3, txt4 := c4 }

/-- The registers after reset, with this block value in WORD. -/
def wordBlock (w : Word) : Block := { Block.reset with word := w }

/-- The STATUS word and RESULT after a command word written straight after reset. -/
def afterReset (cmd : Word) : Option (Word × Byte) :=
  (nextBlock (command cmd State.reset)).map (fun b => (b.status.toWord, b.result))

-- ==== WellFormed: one ill-formed term for its one check ====

/-- R42: a FWD index is "legal when i ≤ 84". -/
theorem test_wellFormed_refuses_fwd_85 : Instr.wellFormed (.fwd 85#8) = false := by decide

/-- R42: 84 is the last legal index. -/
theorem test_wellFormed_accepts_fwd_84 : Instr.wellFormed (.fwd 84#8) = true := by decide

-- ==== Decode: words written out bit by bit from R41's pattern and R43's opcodes ====

/-- R41: 16 zeros, IMM8, 4 zeros, OP. -/
theorem test_decode_nop : decode 0b00000000000000000000000000000000#32 = .legal .nop := by decide
theorem test_decode_enc : decode 0b00000000000000000000000000000001#32 = .legal .enc := by decide
theorem test_decode_dec : decode 0b00000000000000000000000000000010#32 = .legal .dec := by decide
/-- R49: FWD 43 = 0x00002B03. -/
theorem test_decode_fwd : decode 0b00000000000000000010101100000011#32 = .legal (.fwd 0x2B#8) := by decide
/-- R49: INV 'H' = 0x00004804. -/
theorem test_decode_inv : decode 0b00000000000000000100100000000100#32 = .legal (.inv 0x48#8) := by decide
/-- R49: CNTX '3' = 0x00003305. -/
theorem test_decode_cntx : decode 0b00000000000000000011001100000101#32 = .legal (.cntx 0x33#8) := by decide
/-- R49: CNTG 5 = 0x00000506. -/
theorem test_decode_cntg : decode 0b00000000000000000000010100000110#32 = .legal (.cntg 0x05#8) := by decide
theorem test_decode_clrs : decode 0b00000000000000000000000000000111#32 = .legal .clrs := by decide

/-- R70's corner cases: the lowest sub-cause wins. -/
theorem test_decode_rejections :
    decode 0x00010108#32 = .illegal .reservedOpcode ∧ decode 0x00000018#32 = .illegal .reservedOpcode ∧
    decode 0x00000011#32 = .illegal .reservedBits ∧ decode 0x80000001#32 = .illegal .reservedBits ∧
    decode 0x00002A02#32 = .illegal .operandNotAllowed ∧ decode 0x00005503#32 = .illegal .operandOutOfRange := by
  decide

/-- The table's word of a row, through the fixed names. -/
theorem test_decodeTableWord_dec : decodeTableWord 32 2 = some .dec := by decide

-- ==== Each command, from spec/95_test_vectors.md ====

/-- Vector X13: NOP after an error clears ERR and keeps ANYERR. -/
theorem test_nop_keeps_anyErr :
    (nextBlock (exec .nop (machineOf { Block.reset with status := ⟨5#4, 0#3, 0x0F#8, true⟩ }))).map
      (fun b => b.status.toWord) = some 0x80000000#32 := by decide

/-- Vector E8: 0x864FD26F encodes to `Hello`. -/
theorem test_enc_hello :
    (nextBlock (exec .enc (machineOf (wordBlock 0x864FD26F#32)))).map (fun b => [b.txt0, b.txt1, b.txt2, b.txt3, b.txt4])
      = some [0x48#8, 0x65#8, 0x6C#8, 0x6C#8, 0x6F#8] := by decide

/-- Vector E17: the largest value encodes to `%nSc0`. -/
theorem test_enc_largest :
    (nextBlock (exec .enc (machineOf (wordBlock 0xFFFFFFFF#32)))).map (fun b => [b.txt0, b.txt1, b.txt2, b.txt3, b.txt4])
      = some [0x25#8, 0x6E#8, 0x53#8, 0x63#8, 0x30#8] := by decide

/-- Vector D12: `#####` overflows and wraps to 0x08780EC4 with no error. -/
theorem test_dec_overflow_wraps :
    (nextBlock (exec .dec (machineOf (textBlock 0x23#8 0x23#8 0x23#8 0x23#8 0x23#8)))).map
      (fun b => (b.word, b.status.toWord)) = some (0x08780EC4#32, 0x00000000#32) := by decide

/-- Vector D14: of two invalid characters the lower index is reported, and WORD stays. -/
theorem test_dec_lowest_invalid :
    (nextBlock (exec .dec (machineOf (textBlock 0x20#8 0x7E#8 0x6C#8 0x6C#8 0x6F#8)))).map
      (fun b => (b.word, b.status.toWord)) = some (0x00000000#32, 0x80002002#32) := by decide

/-- Vector A9: FWD 84 gives `#`. -/
theorem test_fwd_last_entry : afterReset 0x00005403#32 = some (0x00000000#32, 0x23#8) := by decide
/-- Vector A10: FWD 85 is an IllegalCommand with sub-cause 3, RESULT unchanged. -/
theorem test_fwd_85_rejected : afterReset 0x00005503#32 = some (0x80005535#32, 0x00#8) := by decide
/-- Vector A14: INV `#` gives 84. -/
theorem test_inv_last_digit : afterReset 0x00002304#32 = some (0x00000000#32, 0x54#8) := by decide
/-- Vector A22: INV `~` is an InvalidCharacter. -/
theorem test_inv_tilde : afterReset 0x00007E04#32 = some (0x80007E02#32, 0x00#8) := by decide
/-- Vector K4: CNTX '3' gives 3. -/
theorem test_cntx_three : afterReset 0x00003305#32 = some (0x00000000#32, 0x03#8) := by decide
/-- Vector K6, the source's rejection vector: CNTX '9' is an InvalidCounter. -/
theorem test_cntx_nine : afterReset 0x00003905#32 = some (0x80003903#32, 0x00#8) := by decide
/-- Vector K20: CNTG 255 gives '1'. -/
theorem test_cntg_255 : afterReset 0x0000FF06#32 = some (0x00000000#32, 0x31#8) := by decide
/-- Vector K12: CNTG of an empty payload gives '0'. -/
theorem test_cntg_empty : afterReset 0x00000006#32 = some (0x00000000#32, 0x30#8) := by decide
/-- R69's example: STATUS = 0x80000002, then CLRS, gives 0x00000000. -/
theorem test_clrs_clears :
    (nextBlock (exec .clrs (machineOf { Block.reset with status := ⟨2#4, 0#3, 0x00#8, true⟩ }))).map
      (fun b => b.status.toWord) = some 0x00000000#32 := by decide
/-- Vector X11: a malformed CLRS word sets ANYERR. -/
theorem test_clrs_malformed : afterReset 0x00000107#32 = some (0x80000125#32, 0x00#8) := by decide
/-- Vector X5: a reserved opcode wins over reserved bits and IMM8. -/
theorem test_reserved_opcode_wins : afterReset 0x00010108#32 = some (0x80000805#32, 0x00#8) := by decide

-- ==== The window, the port, the streams and the syntax ====

/-- Vector M2: TXT keeps only bits [7:0]. -/
theorem test_txt_keeps_low_byte :
    (nextBlock (regWrite 4#4 0x12345641#32 State.reset)).map (regRead 4#4) = some 0x00000041#32 := by decide

/-- Vector M6: an unmapped index reads 0 and ignores a write. -/
theorem test_unmapped_index :
    (nextBlock (regWrite 9#4 0xFFFFFFFF#32 State.reset)).map (fun b => (b, regRead 9#4 b, regRead 15#4 b))
      = some (Block.reset, 0x00000000#32, 0x00000000#32) := by decide

/-- R22: register 8 (TXT4) lies at byte offset 0x20 (R23), and a misaligned access is refused (R27). -/
theorem test_bus_access : busEvent 0x20 4 none = .access (.read 8#4) ∧ busEvent 0x21 4 none = .otherShape .misaligned ∧
    busEvent 0x20 1 none = .otherShape .subWord := by decide

/-- The fixed names: the very next step runs the word's command. -/
theorem test_withFetchWord_runs_enc :
    (nextBlock (step (State.reset.withFetchWord 32 1))).map (fun b => b.txt0) = some 0x30#8 := by decide

/-- Vector S13 (R75): one byte is padded with three fillers. -/
theorem test_encodePadded_one_byte :
    encodePadded [0x86#8] = .ok [0x48#8, 0x35#8, 0x2E#8, 0x68#8, 0x4E#8, 0x33#8] := by decide

/-- Vector S28 (R76): the counter is checked before length and characters. -/
theorem test_decodePadded_counter_first :
    decodePadded [0x48#8, 0x65#8, 0x6C#8, 0x20#8, 0x39#8] = .err .invalidCounter (.counter 0x39#8) := by decide

/-- Vector S9 (R74): a space at position 5 of the whole text. -/
theorem test_decodeStrict_position :
    decodeStrict [0x48#8, 0x65#8, 0x6C#8, 0x6C#8, 0x6F#8, 0x20#8, 0x57#8, 0x6F#8, 0x72#8, 0x6C#8]
      = .err .invalidCharacter (.char 5 0x20#8) := by decide

/-- Vector S34 (R77): the source's rejection vector. -/
theorem test_extractCounter_nine :
    extractCounter [0x40#8, 0x40#8, 0x40#8, 0x40#8, 0x39#8] = .err .invalidCounter (.counter 0x39#8) := by decide

/-- R50: `WR TXT3, ' ' // c` writes the code of a space to index 7. -/
theorem test_assembleLine_space :
    assembleLine ['W', 'R', ' ', 'T', 'X', 'T', '3', ',', ' ', '\'', ' ', '\'', ' ', '/', '/', ' ', 'c']
      = some [.write 7#4 0x00000020#32] := by decide

/-- R51: `WRBYTES 0x86,0x4F,210,111` writes the big-endian block value. -/
theorem test_assembleLine_bytes :
    assembleLine ['W', 'R', 'B', 'Y', 'T', 'E', 'S', ' ', '0', 'x', '8', '6', ',', '0', 'x', '4', 'F', ',', '2', '1',
      '0', ',', '1', '1', '1'] = some [.write 2#4 0x864FD26F#32] := by decide

/-- R54's list: a sample entry in each part of the table, and both ends. -/
theorem test_invRom_entries :
    invRom 0x21#8 = ⟨true, 68#7⟩ ∧ invRom 0x30#8 = ⟨true, 0#7⟩ ∧ invRom 0x40#8 = ⟨true, 81#7⟩ ∧
    invRom 0x5A#8 = ⟨true, 61#7⟩ ∧ invRom 0x7A#8 = ⟨true, 35#7⟩ ∧ invRom 0x7D#8 = ⟨true, 80#7⟩ ∧
    invRom 0x7E#8 = ⟨false, 0#7⟩ := by decide

-- ==== Witnesses: concrete values that meet the hypotheses of each statement that has any ====

/-- The state in which this event comes next. -/
def eventNext (e : Event) : State := { State.reset with pending := [e] }

theorem witness_DecodedWordIsItsEncoding : decode 0x00005403#32 = .legal (.fwd 84#8) := by decide

theorem witness_OpcodeRowsAgreeWithDecode :
    opcodeRows[7]? = some ⟨0x00000007#32, 0xFFFFFFFF#32⟩ ∧
    OpcodeRow.matchesWord ⟨0x00000007#32, 0xFFFFFFFF#32⟩ 0x00000007#32 = true ∧
    decode 0x00000007#32 = .legal .clrs ∧
    opcodeRows[3]? = some ⟨0x00000003#32, 0xFFFF00FF#32⟩ ∧
    OpcodeRow.matchesWord ⟨0x00000003#32, 0xFFFF00FF#32⟩ 0x00005503#32 = true ∧
    OpcodeRow.matchesWord ⟨0x00000003#32, 0xFFFF00FF#32⟩ 0x00005403#32 = true := by decide

/-- One word for each clause of R48, at the boundary values: opcode 8 and 7, operand 85 and 84. -/
theorem witness_CommandWriteDecodesAndExecutes :
    8 ≤ ((0x00000008#32 : Word).extractLsb' 0 4).toNat ∧
    (((0x00000017#32 : Word).extractLsb' 0 4).toNat < 8 ∧ (0x00000017#32 : Word).extractLsb' 4 4 ≠ 0#4) ∧
    (((0x00010001#32 : Word).extractLsb' 0 4).toNat < 8 ∧ (0x00010001#32 : Word).extractLsb' 16 16 ≠ 0#16) ∧
    ((0x00000107#32 : Word).extractLsb' 4 4 = 0#4 ∧ (0x00000107#32 : Word).extractLsb' 16 16 = 0#16 ∧
      (0x00000107#32 : Word).extractLsb' 0 4 = 7#4 ∧ (0x00000107#32 : Word).extractLsb' 8 8 ≠ 0#8) ∧
    ((0x00005503#32 : Word).extractLsb' 0 4 = 3#4 ∧ 85 ≤ ((0x00005503#32 : Word).extractLsb' 8 8).toNat) ∧
    ((0x00005403#32 : Word).extractLsb' 0 4 = 3#4 ∧ ((0x00005403#32 : Word).extractLsb' 8 8).toNat < 85) ∧
    ((0x00000000#32 : Word).extractLsb' 0 4 = 0#4 ∧ (0x00000000#32 : Word).extractLsb' 8 8 = 0#8) ∧
    ((0x00000001#32 : Word).extractLsb' 0 4 = 1#4 ∧ (0x00000001#32 : Word).extractLsb' 8 8 = 0#8) ∧
    ((0x00000002#32 : Word).extractLsb' 0 4 = 2#4 ∧ (0x00000002#32 : Word).extractLsb' 8 8 = 0#8) ∧
    (0x0000FF04#32 : Word).extractLsb' 0 4 = 4#4 ∧ (0x0000FF05#32 : Word).extractLsb' 0 4 = 5#4 ∧
    (0x0000FF06#32 : Word).extractLsb' 0 4 = 6#4 ∧
    ((0x00000007#32 : Word).extractLsb' 0 4 = 7#4 ∧ (0x00000007#32 : Word).extractLsb' 8 8 = 0#8) := by decide

theorem witness_StepRunsTheDecodedCommand :
    (eventNext (.access (.write 0#4 0x00000001#32))).pending = [.access (.write 0#4 0x00000001#32)] ∧
    decode 0x00000001#32 = .legal .enc := by decide

theorem witness_StepServesTheOldestEvent :
    (eventNext (.access (.read 15#4))).pending = [.access (.read 15#4)] ∧
    (eventNext (.access (.write 2#4 0xFFFFFFFF#32))).pending = [.access (.write 2#4 0xFFFFFFFF#32)] ∧
    (eventNext .reset).pending = [.reset] ∧ State.reset.pending = [] := by decide

theorem witness_RefusedAccesses :
    (eventNext (.secondHost (.read 1#4))).pending = [.secondHost (.read 1#4)] ∧
    (eventNext (.duringReset (.read 1#4))).pending = [.duringReset (.read 1#4)] ∧
    (eventNext (busEvent 0 3 none)).pending = [busEvent 0 3 none] ∧
    (eventNext (busEvent 0 5 none)).pending = [busEvent 0 5 none] ∧
    (4 + 3) % 4 ≠ 0 ∧ (eventNext (busEvent 7 4 none)).pending = [busEvent 7 4 none] := by decide

theorem witness_RegReadValues : 9 ≤ (9#4).toNat ∧ 9 ≤ (15#4).toNat := by decide
theorem witness_RegWriteEffects : 9 ≤ (9#4).toNat ∧ 9 ≤ (15#4).toNat := by decide
theorem witness_ReadAfterWrite : (1#4) ≠ 0#4 ∧ (2#4) ≠ 0#4 ∧ (4#4) ≠ 0#4 ∧ (8#4) ≠ 0#4 ∧ (9#4) ≠ 0#4 := by decide
theorem witness_StatusWordLayout : 16 ≤ 16 ∧ 16 ≤ 30 ∧ 30 ≤ 30 := by decide
theorem witness_ResetSetsEveryRegister : (eventNext .reset).pending = [.reset] := by decide

theorem witness_AlphabetOrder :
    fwdRom 84 = fwdRom 84 ∧ (9 : Fin 85).val ≤ 9 ∧ (10 ≤ (10 : Fin 85).val ∧ (35 : Fin 85).val ≤ 35) ∧
    (36 ≤ (36 : Fin 85).val ∧ (61 : Fin 85).val ≤ 61) ∧ 0x20 ≤ (0x20#8).toNat ∧ (0x7E#8).toNat ≤ 0x7E := by decide

theorem witness_InverseTableCases : (0x23#8 : Byte) = fwdRom 84 ∧ ∀ i : Fin 85, (0x20#8 : Byte) ≠ fwdRom i := by decide
theorem witness_TablesAgree : (invRom 0x7D#8).valid = true := by decide
theorem witness_StrictInvalidBytes : inAlphabet 0x30#8 = true := by decide

theorem witness_LegalWordsPerOpcode : ¬ ∃ i, decode 0x00000008#32 = .legal i := by
  rw [show decode 0x00000008#32 = .illegal .reservedOpcode by decide]
  rintro ⟨_, h⟩
  cases h

theorem witness_NopClearsTheLastError :
    (⟨3#4, 0#3, 0x20#8, true⟩ : Status).toWord = 0x80002003#32 ∧
    ((0x00000010#32 : Word).extractLsb' 0 4 = 0#4 ∧ (0x00000010#32 : Word) ≠ 0x00000000#32) := by decide

theorem witness_ClrsClearsStatus :
    (∃ t, exec .clrs State.reset = .next t) ∧
    ((0x00000107#32 : Word).extractLsb' 0 4 = 7#4 ∧ (0x00000107#32 : Word) ≠ 0x00000007#32) :=
  ⟨⟨_, rfl⟩, by decide⟩

/-- Indices at the bound, and a FWD word that is malformed in its reserved bits alone. -/
theorem witness_FwdWritesTheTableEntry :
    (84#8 : Byte).toNat < 85 ∧ 85 ≤ (85#8 : Byte).toNat ∧ (0x00000013#32 : Word).extractLsb' 0 4 = 3#4 ∧
    ∀ imm : Byte, (0x00000013#32 : Word) ≠ 0#16 ++ imm ++ 0x03#8 := by decide

theorem witness_CntgGeneratesTheDigit :
    (0x00010006#32 : Word).extractLsb' 0 4 = 6#4 ∧ ∀ imm : Byte, (0x00010006#32 : Word) ≠ 0#16 ++ imm ++ 0x06#8 := by
  decide

/-- A failing command: the premise of the last clause. -/
theorem witness_NoCommandReadsStatus :
    (nextBlock (command 0x0000000F#32 State.reset)).map (fun b => b.status.err) = some 5#4 := by decide

theorem witness_CommandWriteSets :
    (nextBlock (exec .dec State.reset)).map (fun b => b.status.err) = some 2#4 ∧
    (nextBlock (exec .nop State.reset)).map (fun b => b.status.err) = some 0#4 := by decide

/-- Operands at the bounds 255 and 256, and the tokens of a command. -/
theorem witness_AssemblerEncodesCommands :
    operandOf (.name ['2', '5', '5']) = some 255 ∧ operandOf (.name ['2', '5', '6']) = some 256 := by decide

theorem witness_PseudoInstructionEffects :
    commandOfTokens [.name ['C', 'N', 'T', 'G'], .name ['5']] = some (.cntg 5#8) ∧
    byteOperandOf (.name ['0', 'x', '8', '6']) = some 0x86#8 ∧ byteOperandOf (.name ['2', '5', '5']) = some 0xFF#8 ∧
    byteOperandOf (.chr 0x22#8) = some 0x22#8 := by decide

theorem witness_InvWritesTheDigit : (0x23#8 : Byte) = fwdRom 84 ∧ ∀ i : Fin 85, (0x7E#8 : Byte) ≠ fwdRom i := by decide

theorem witness_EncWritesTheDigits :
    ((0x00000101#32 : Word).extractLsb' 0 4 = 1#4 ∧ (0x00000101#32 : Word) ≠ 0x00000001#32) ∧
    (∃ t, exec .enc (machineOf (wordBlock 0x00000054#32)) = .next t) ∧
    (machineOf (wordBlock 0x00000054#32)).block.word = 0x00000054#32 :=
  ⟨by decide, ⟨_, rfl⟩, rfl⟩

theorem witness_DecWritesTheTextValue :
    validText (textBlock 0x25#8 0x6E#8 0x53#8 0x63#8 0x31#8).txt ∧
    (inAlphabet ((textBlock 0x30#8 0x30#8 0x30#8 0x30#8 0x7E#8).txt 4) = false ∧
      ∀ k : Fin 5, k.val < 4 → inAlphabet ((textBlock 0x30#8 0x30#8 0x30#8 0x30#8 0x7E#8).txt k) = true) ∧
    inAlphabet ((textBlock 0x00#8 0x00#8 0x00#8 0x00#8 0x00#8).txt 0) = false ∧
    ((0x00000102#32 : Word).extractLsb' 0 4 = 2#4 ∧ (0x00000102#32 : Word) ≠ 0x00000002#32) := by
  unfold validText
  decide

/-- The corner cases' texts stand in TXT of a machine on which DEC goes on. -/
theorem witness_DecWritesTheTextValue_text :
    (textBlock 0x48#8 0x65#8 0x6C#8 0x20#8 0x6F#8).txt = textOf 0x48#8 0x65#8 0x6C#8 0x20#8 0x6F#8 ∧
    ∃ t, exec .dec (machineOf (textBlock 0x48#8 0x65#8 0x6C#8 0x20#8 0x6F#8)) = .next t :=
  ⟨by decide, ⟨_, rfl⟩⟩

theorem witness_CntxExtractsTheCounter :
    (0x30 ≤ (0x30#8 : Byte).toNat ∧ (0x33#8 : Byte).toNat ≤ 0x33) ∧ (0x2F#8 : Byte).toNat < 0x30 ∧
    0x33 < (0x34#8 : Byte).toNat := by decide

theorem witness_DigitsSumToTheBlockValue : validText (textOf 0x23#8 0x23#8 0x23#8 0x23#8 0x23#8) := by
  unfold validText
  decide

/-- Text values just below 2^32, at 2^32, and at the largest. -/
theorem witness_BlockRoundTrip :
    (validText (textBlock 0x25#8 0x6E#8 0x53#8 0x63#8 0x30#8).txt ∧
      textValue (textBlock 0x25#8 0x6E#8 0x53#8 0x63#8 0x30#8).txt < 2 ^ 32) ∧
    (validText (textBlock 0x25#8 0x6E#8 0x53#8 0x63#8 0x31#8).txt ∧
      2 ^ 32 ≤ textValue (textBlock 0x25#8 0x6E#8 0x53#8 0x63#8 0x31#8).txt) := by
  unfold validText
  decide

theorem witness_OverflowRegion :
    validText (textOf 0x25#8 0x6E#8 0x53#8 0x63#8 0x31#8) ∧ 4437053124 < 85 ^ 5 ∧
    (∃ t, exec .enc State.reset = .next t) ∧ (142085828#32 : Word).toNat < 142085829 ∧
    142085829 ≤ (142085829#32 : Word).toNat := by
  refine ⟨?_, by decide, ⟨_, rfl⟩, by decide, by decide⟩
  unfold validText
  decide

theorem witness_AnyErrIsSticky :
    ∃ t, step { eventNext (.access (.write 0#4 0x00000007#32)) with
        block := { Block.reset with status := ⟨5#4, 0#3, 0x0F#8, true⟩ } } = .next t ∧
      t.block.status.anyErr = false := ⟨_, rfl, rfl⟩

/-- A step that changes each register: WORD and TXT0 by host writes, RESULT by FWD 43, STATUS by a reserved opcode. -/
theorem witness_RegistersChangeOnlyByTheirWriters :
    (nextBlock (step (eventNext (.access (.write 2#4 0xCAFEBABE#32))))).map (fun b => b.word) = some 0xCAFEBABE#32 ∧
    (nextBlock (step (eventNext (.access (.write 8#4 0x00000041#32))))).map (fun b => b.txt4) = some 0x41#8 ∧
    (nextBlock (step (eventNext (.access (.write 0#4 0x00002B03#32))))).map (fun b => b.result) = some 0x48#8 ∧
    (nextBlock (step (eventNext (.access (.write 0#4 0x0000000F#32))))).map (fun b => b.status)
      = some ⟨5#4, 0#3, 0x0F#8, true⟩ := by decide

theorem witness_InvariantKeptByStep :
    (eventNext (.access (.write 0#4 0x00000002#32))).Inv ∧
    ∃ t, step (eventNext (.access (.write 0#4 0x00000002#32))) = .next t := by
  exact ⟨by unfold State.Inv; decide, ⟨_, rfl⟩⟩

theorem witness_StepStopsOnlyOnRefusedEvents :
    (eventNext .reset).pending = [.reset] ∧ Event.served .reset = true ∧
    Event.served (.secondHost (.read 0#4)) = false := by decide

/-- Two instances that start together; the second then goes on, and the first is untouched. -/
theorem witness_InstancesAreIsolated :
    (∃ q r, (Platform.start 2).stepAt 1 = some (.next q) ∧ q.stepAt 0 = some (.next r)) ∧
    (Platform.start 2)[1]? = (Platform.start 3)[1]? ∧ (0 : Nat) ≠ 1 := ⟨⟨_, _, rfl, rfl⟩, rfl, by decide⟩

theorem witness_StreamRoundTrips : ([] : List Byte).length % 4 = 0 ∧ [0#8, 1#8, 2#8, 3#8].length % 4 = 0 := by decide

theorem witness_StreamLengthLaws :
    encodeStrict [0x00#8, 0x00#8, 0x00#8, 0x00#8] = .ok [0x30#8, 0x30#8, 0x30#8, 0x30#8, 0x30#8] ∧
    decodeStrict [0x30#8, 0x30#8, 0x30#8, 0x30#8, 0x30#8] = .ok [0x00#8, 0x00#8, 0x00#8, 0x00#8] ∧
    encodePadded [] = .ok [0x30#8] ∧ decodePadded [0x30#8] = .ok [] ∧ extractCounter [0x30#8] = .ok 0 := by decide

theorem witness_StreamOutputAlphabet :
    encodeStrict [0x00#8, 0x00#8, 0x00#8, 0x00#8] = .ok [0x30#8, 0x30#8, 0x30#8, 0x30#8, 0x30#8] ∧
    encodePadded [] = .ok [0x30#8] := by decide

/-- Strict texts that end in a character outside and inside '0'..'3'. -/
theorem witness_PaddedTextIsStrictTextWithCounter :
    [0x86#8, 0x4F#8, 0xD2#8, 0x6F#8].length % 4 = 0 ∧
    (encodeStrict [0x86#8, 0x4F#8, 0xD2#8, 0x6F#8] = .ok ([0x48#8, 0x65#8, 0x6C#8, 0x6C#8] ++ [0x6F#8]) ∧
      0x33 < (0x6F#8 : Byte).toNat) ∧
    (encodeStrict [0x00#8, 0x00#8, 0x00#8, 0x00#8] = .ok ([0x30#8, 0x30#8, 0x30#8, 0x30#8] ++ [0x30#8]) ∧
      0x30 ≤ (0x30#8 : Byte).toNat ∧ (0x30#8 : Byte).toNat ≤ 0x33) := by decide

theorem witness_InvalidPaddingOnlyForEmptyBody :
    decodePadded [0x31#8] = .err .invalidPadding (.padding 1 0) ∧
    decodePadded [0x33#8] = .err .invalidPadding (.padding 3 0) := by decide

theorem witness_DecodeStrictReportsTheFirstInvalid :
    decodeStrict [0x48#8, 0x65#8, 0x6C#8, 0x20#8, 0x7E#8] = .err .invalidCharacter (.char 3 0x20#8) := by decide

theorem witness_FailuresOfEachOperation :
    encodeStrict [0x86#8] = .err .invalidLength (.length 1) ∧
    decodeStrict [0x86#8] = .err .invalidLength (.length 1) ∧
    decodePadded [] = .err .invalidCounter .absent ∧ extractCounter [] = .err .invalidCounter .absent ∧
    (nextBlock (exec .dec State.reset)).map (fun b => b.status.err) = some 2#4 ∧
    (nextBlock (exec (.inv 0#8) State.reset)).map (fun b => b.status.err) = some 2#4 ∧
    (nextBlock (exec (.cntx 0#8) State.reset)).map (fun b => b.status.err) = some 3#4 ∧
    (nextBlock (exec (.fwd 85#8) State.reset)).map (fun b => b.status.err) = some 5#4 ∧
    decode 0x00000008#32 = .illegal .reservedOpcode := by decide

end Sys2Proof.Tests
end

section
/-! SUPPORT. Facts about the tables, RESULT's legal values and the decoder that the state's invariant rests on. -/

namespace Sys2Proof.Machine

/-- A byte is an alphabet character exactly when it is an entry of FWD_ROM (spec/40_alphabet.md R54, R55). -/
theorem inAlphabet_iff_mem (c : Byte) : inAlphabet c = true ↔ c ∈ fwdRomEntries := by
  unfold inAlphabet invRom
  cases h : fwdRomEntries.findIdx? (fun a => a == c) with
  | none =>
    rw [List.findIdx?_eq_none_iff] at h
    refine iff_of_false (by simp) fun hc => ?_
    simpa using h c hc
  | some i =>
    obtain ⟨hi, heq, -⟩ := List.findIdx?_eq_some_iff_getElem.mp h
    exact iff_of_true rfl (by simpa using (beq_iff_eq.mp heq) ▸ List.getElem_mem hi)

/-- Every value INV_ROM holds is a digit (spec/40_alphabet.md R54). -/
theorem invRom_value_lt (c : Byte) : (invRom c).value.toNat < Config.alphabetSize := by
  unfold invRom
  cases h : fwdRomEntries.findIdx? (fun a => a == c) with
  | none => decide
  | some i =>
    obtain ⟨hi, -⟩ := List.findIdx?_eq_some_iff_getElem.mp h
    exact lt_of_le_of_lt (by simpa using Nat.mod_le i 128) (fwdRomEntries_length ▸ hi)

/-- A digit value is a legal RESULT (spec/10_state.md R14). -/
theorem legalResult_of_lt {r : Byte} (h : r.toNat < Config.alphabetSize) : legalResult r = true := by
  simp [legalResult, h]

/-- What FWD writes to RESULT is legal: an alphabet character. -/
theorem legalResult_fwdRom (i : Fin Config.alphabetSize) : legalResult (fwdRom i) = true := by
  have h : inAlphabet (fwdRom i) = true := (inAlphabet_iff_mem _).mpr (List.get_mem _ _)
  simp [legalResult, h]

/-- What INV writes to RESULT is legal: a digit. -/
theorem legalResult_invRom (c : Byte) : legalResult ((invRom c).value.setWidth 8) = true := by
  refine legalResult_of_lt (lt_of_le_of_lt ?_ (invRom_value_lt c))
  rw [BitVec.toNat_setWidth]
  exact Nat.mod_le _ _

/-- What CNTX writes to RESULT is legal: a counter 0..3. -/
theorem legalResult_counter {c : Byte} (h : isCounterDigit c = true) : legalResult (c - counterBase) = true := by
  obtain ⟨hlo, hhi⟩ := of_decide_eq_true h
  have hlt : (c - 0x30#8).toNat < 85 := by bv_omega
  exact legalResult_of_lt hlt

/-- What CNTG writes to RESULT is legal: a counter digit '0'..'3', whose code is below 85. -/
theorem legalResult_counterDigit (m : BitVec 2) :
    legalResult (counterBase + BitVec.ofNat 8 (paddingOf m)) = true := by
  have hm : paddingOf m < 4 := Nat.mod_lt _ (by decide)
  have hlt : (0x30#8 + BitVec.ofNat 8 (paddingOf m)).toNat < 85 := by
    rw [BitVec.toNat_add, BitVec.toNat_ofNat, BitVec.toNat_ofNat]
    omega
  exact legalResult_of_lt hlt

/-- The only name whose code is 0 is that of no error (spec/60_exceptions.md R88). -/
theorem ErrorName.code_ne_zero {e : ErrorName} (h : e ≠ .none) : e.code ≠ 0#4 := by
  cases e with
  | none => exact absurd rfl h
  | _ => decide

/-- DEC's and INV's error is legal STATUS: a position 0..4 and a byte outside the alphabet. -/
theorem legal_failed_invalidCharacter {pos : BitVec 3} {c : Byte} (hpos : pos.toNat ≤ 4)
    (hc : (invRom c).valid = false) : (Status.failed .invalidCharacter pos c).legal = true := by
  simp [Status.legal, Status.failed, ErrorName.code, inAlphabet, hpos, hc]

/-- CNTX's error is legal STATUS: position 0 and a byte that is no counter digit. -/
theorem legal_failed_invalidCounter {c : Byte} (hc : ¬ isCounterDigit c = true) :
    (Status.failed .invalidCounter 0#3 c).legal = true := by
  simp [Status.legal, Status.failed, ErrorName.code, hc]

/-- An IllegalCommand is legal STATUS exactly when its sub-cause and byte are those of a rejection. -/
theorem legal_failed_illegalCommand (pos : BitVec 3) (byte : Byte) :
    (Status.failed .illegalCommand pos byte).legal = legalRejection pos byte := by
  simp [Status.legal, Status.failed, ErrorName.code]

end Sys2Proof.Machine

namespace Sys2Proof

/-- A command of R48's `case op of` has that opcode, and that operand where it takes one. -/
theorem opcode_imm8_of_commandOf {op : BitVec 4} {imm : Byte} {i : Instr} (h : commandOf op imm = .legal i) :
    i.opcode = op ∧ i.imm8 = if takesNoOperand op = true then 0#8 else imm := by
  have hop : op = BitVec.ofNat 4 op.toNat := by simp
  unfold commandOf at h
  split at h
  case h_9 => cases h
  all_goals
    rename_i heq
    rw [heq] at hop
    subst hop
    cases h
    exact ⟨rfl, rfl⟩

/-- Only an opcode from 8 on has no command. -/
theorem le_of_commandOf_illegal {op : BitVec 4} {imm : Byte} {c : IllegalCause} (h : commandOf op imm = .illegal c) :
    8 ≤ op.toNat := by
  unfold commandOf at h
  split at h
  case h_9 =>
    simp only [imp_false] at *
    omega
  all_goals cases h

/-- A word that decodes to a command is that command's encoding (spec/30_encoding.md R48, R49). -/
theorem eq_encode_of_decode {cmd : Word} {i : Instr} (h : decode cmd = .legal i) : cmd = encode i := by
  unfold decode at h
  split_ifs at h with _ hrsv himm _
  obtain ⟨hrsv0, hrsv1⟩ := not_or.mp hrsv
  obtain ⟨hop, himm8⟩ := opcode_imm8_of_commandOf h
  have hoperand : i.imm8 = imm8Field cmd := by
    by_cases ht : takesNoOperand (opField cmd) = true
    · rw [himm8, if_pos ht, not_not.mp fun hne => himm ⟨ht, hne⟩]
    · rw [himm8, if_neg ht]
  rw [encode, hop, hoperand, ← not_not.mp hrsv0, ← not_not.mp hrsv1, fields_reassemble]

/-- The low four bits of cmd[7:0] are the opcode (spec/30_encoding.md R41). -/
theorem lowByteField_mod (cmd : Word) : (lowByteField cmd).toNat % 16 = (opField cmd).toNat := by
  simp only [lowByteField, opField, BitVec.extractLsb'_toNat, Nat.shiftRight_zero]
  omega

end Sys2Proof

namespace Sys2Proof.Machine

/-- The sub-cause and detail of a rejected word agree with the check that rejects it (spec/30_encoding.md R44 to
R46). -/
theorem legalRejection_of_decode {cmd : Word} {c : IllegalCause} (h : decode cmd = .illegal c) :
    legalRejection c.subcause (c.detail cmd) = true := by
  unfold decode at h
  split_ifs at h with hop _ himm hfwd
  · cases h
    simpa [legalRejection, IllegalCause.subcause, IllegalCause.detail, lowByteField_mod] using hop
  · cases h
    simpa [legalRejection, IllegalCause.subcause, IllegalCause.detail, lowByteField_mod] using hop
  · cases h
    exact decide_eq_true himm.2
  · cases h
    exact decide_eq_true hfwd.2
  · exact absurd (le_of_commandOf_illegal h) hop

end Sys2Proof.Machine
end

section
/-! SUPPORT. What a command does to the registers, said once and uniformly in the earlier STATUS, and what a step does to
them. -/

namespace Sys2Proof.Machine

/-- The data registers after the success of a command, from those before it: each command writes its own destination
alone (spec/10_state.md R21), and RESULT takes a legal value (R14). -/
inductive OwnWrite (b : Block) : Instr → Block → Prop where
  | nop : OwnWrite b .nop b
  | enc (t : Fin Config.blockChars → Byte) :
    OwnWrite b .enc { b with txt0 := t 0, txt1 := t 1, txt2 := t 2, txt3 := t 3, txt4 := t 4 }
  | dec (v : Word) : OwnWrite b .dec { b with word := v }
  | lookup {i : Instr} {v : Byte} (hop : 3 ≤ i.opcode.toNat ∧ i.opcode.toNat ≤ 6) (hv : legalResult v = true) :
    OwnWrite b i { b with result := v }

/-- What the write of a decoded word does: the registers it leaves, STATUS apart, and how the new STATUS depends on
the old one. A success keeps ANYERR, CLRS clears everything, and a failure writes a legal error alone
(spec/60_exceptions.md R90). -/
inductive CommandEffect (b : Block) : Decoded → Block → (Status → Status) → Prop where
  | succeeds {i : Instr} {b' : Block} (h : OwnWrite b i b') : CommandEffect b (.legal i) b' Status.succeed
  | clears : CommandEffect b (.legal .clrs) b (fun _ => Status.cleared)
  | fails {c : Decoded} {e : ErrorName} {pos : BitVec 3} {byte : Byte} (he : e ≠ .none)
    (hlegal : (Status.failed e pos byte).legal = true) : CommandEffect b c b (fun _ => Status.failed e pos byte)

/-- Every command goes on from every STATUS, with an effect that does not depend on it (spec/10_state.md R19). -/
theorem exec_effect (i : Instr) (s : State) : ∃ b f, CommandEffect s.block (.legal i) b f ∧
    ∀ st, exec i (s.setStatus st) = .next { s with block := { b with status := f st } } := by
  cases i with
  | nop => exact ⟨_, _, .succeeds .nop, fun _ => rfl⟩
  | enc => exact ⟨_, _, .succeeds (.enc fun k => fwdRom (digit s.block.word k)), fun _ => rfl⟩
  | dec =>
    have htxt : ∀ st, (s.setStatus st).block.txt = s.block.txt := fun _ => rfl
    cases h : firstInvalid s.block.txt with
    | none =>
      refine ⟨_, _, .succeeds (.dec (decodeAccumulate s.block.txt)), fun st => ?_⟩
      simp only [exec, execDec, htxt, h]
      rfl
    | some j =>
      obtain ⟨hinvalid, -⟩ := (firstInvalid_eq_some_iff _ _).mp h
      have hpos : (BitVec.ofNat 3 j.val).toNat ≤ 4 := by
        rw [BitVec.toNat_ofNat]
        exact (Nat.mod_le _ _).trans (Nat.le_of_lt_succ j.isLt)
      refine ⟨_, _, .fails (by decide) (legal_failed_invalidCharacter hpos hinvalid), fun st => ?_⟩
      simp only [exec, execDec, htxt, h]
      rfl
  | fwd imm =>
    by_cases h : imm.toNat < Config.alphabetSize
    · refine ⟨_, _, .succeeds (.lookup (by simp [Instr.opcode]) (legalResult_fwdRom ⟨imm.toNat, h⟩)), fun st => ?_⟩
      simp only [exec, execFwd, dif_pos h]
      rfl
    · have hlegal : legalRejection 3#3 imm = true := decide_eq_true (Nat.not_lt.mp h)
      refine ⟨_, _, .fails (by decide) ((legal_failed_illegalCommand 3#3 imm).trans hlegal), fun st => ?_⟩
      simp only [exec, execFwd, dif_neg h]
      rfl
  | inv imm =>
    by_cases h : (invRom imm).valid = true
    · refine ⟨_, _, .succeeds (.lookup (by simp [Instr.opcode]) (legalResult_invRom imm)), fun st => ?_⟩
      simp only [exec, execInv, if_pos h]
      rfl
    · refine ⟨_, _, .fails (by decide)
        (legal_failed_invalidCharacter (pos := 0#3) (by decide) (Bool.eq_false_iff.mpr h)), fun st => ?_⟩
      simp only [exec, execInv, if_neg h]
      rfl
  | cntx imm =>
    by_cases h : isCounterDigit imm = true
    · refine ⟨_, _, .succeeds (.lookup (by simp [Instr.opcode]) (legalResult_counter h)), fun st => ?_⟩
      simp only [exec, execCntx, if_pos h]
      rfl
    · refine ⟨_, _, .fails (by decide) (legal_failed_invalidCounter h), fun st => ?_⟩
      simp only [exec, execCntx, if_neg h]
      rfl
  | cntg imm =>
    have hlegal := legalResult_counterDigit (lengthResidue imm)
    exact ⟨_, _, .succeeds (.lookup (by simp [Instr.opcode]) hlegal), fun _ => rfl⟩
  | clrs => exact ⟨_, _, .clears, fun _ => rfl⟩

/-- Every word written to CMD goes on from every STATUS, with an effect that does not depend on it. -/
theorem command_effect (cmd : Word) (s : State) : ∃ b f, CommandEffect s.block (decode cmd) b f ∧
    ∀ st, command cmd (s.setStatus st) = .next { s with block := { b with status := f st } } := by
  unfold command
  cases h : decode cmd with
  | legal i => exact exec_effect i s
  | illegal c =>
    have hlegal := (legal_failed_illegalCommand _ _).trans (legalRejection_of_decode h)
    exact ⟨_, _, .fails (by decide) hlegal, fun _ => rfl⟩

section
variable {b b' : Block} {i : Instr} {c : Decoded} {f : Status → Status}

/-- A successful command other than DEC leaves WORD. -/
theorem OwnWrite.word (h : OwnWrite b i b') (hi : i ≠ .dec) : b'.word = b.word := by
  cases h with
  | dec => exact absurd rfl hi
  | _ => rfl

/-- A successful command other than ENC leaves TXT. -/
theorem OwnWrite.txt (h : OwnWrite b i b') (hi : i ≠ .enc) (k : Fin Config.blockChars) : b'.txt k = b.txt k := by
  cases h with
  | enc => exact absurd rfl hi
  | _ => rfl

/-- A successful command other than FWD, INV, CNTX and CNTG leaves RESULT. -/
theorem OwnWrite.result (h : OwnWrite b i b') (hi : ¬ (3 ≤ i.opcode.toNat ∧ i.opcode.toNat ≤ 6)) :
    b'.result = b.result := by
  cases h with
  | lookup hop => exact absurd hop hi
  | _ => rfl

/-- CLRS has no effect of a plain success: it clears ANYERR. -/
theorem OwnWrite.ne_clrs (h : OwnWrite b i b') : i ≠ .clrs := by
  rintro rfl
  cases h with
  | lookup hop => exact absurd hop (by decide)

/-- A successful command leaves a legal RESULT. -/
theorem OwnWrite.legal_result (h : OwnWrite b i b') (hb : legalResult b.result = true) :
    legalResult b'.result = true := by
  cases h with
  | lookup _ hv => exact hv
  | _ => exact hb

/-- A command that changes a data register is a legal one that succeeds. -/
theorem CommandEffect.ownWrite_of_ne (h : CommandEffect b c b' f) (hne : b' ≠ b) :
    ∃ i, c = .legal i ∧ OwnWrite b i b' := by
  cases h with
  | succeeds h => exact ⟨_, rfl, h⟩
  | _ => exact absurd rfl hne

/-- A command that changes WORD is DEC. -/
theorem CommandEffect.eq_dec (h : CommandEffect b c b' f) (hne : b'.word ≠ b.word) : c = .legal .dec := by
  obtain ⟨i, rfl, hw⟩ := h.ownWrite_of_ne fun he => hne (he ▸ rfl)
  exact congrArg _ (not_not.mp fun hi => hne (hw.word hi))

/-- A command that changes TXT is ENC. -/
theorem CommandEffect.eq_enc (h : CommandEffect b c b' f) {k : Fin Config.blockChars} (hne : b'.txt k ≠ b.txt k) :
    c = .legal .enc := by
  obtain ⟨i, rfl, hw⟩ := h.ownWrite_of_ne fun he => hne (he ▸ rfl)
  exact congrArg _ (not_not.mp fun hi => hne (hw.txt hi k))

/-- A command that changes RESULT is FWD, INV, CNTX or CNTG. -/
theorem CommandEffect.eq_lookup (h : CommandEffect b c b' f) (hne : b'.result ≠ b.result) :
    ∃ i, c = .legal i ∧ 3 ≤ i.opcode.toNat ∧ i.opcode.toNat ≤ 6 := by
  obtain ⟨i, rfl, hw⟩ := h.ownWrite_of_ne fun he => hne (he ▸ rfl)
  exact ⟨i, rfl, not_not.mp fun hi => hne (hw.result hi)⟩

/-- STATUS after a command is legal, whatever it was before. -/
theorem CommandEffect.legal_status (h : CommandEffect b c b' f) (st : Status) : (f st).legal = true := by
  cases h with
  | succeeds => rfl
  | clears => rfl
  | fails _ hlegal => exact hlegal

/-- A command leaves a legal RESULT. -/
theorem CommandEffect.legal_result (h : CommandEffect b c b' f) (hb : legalResult b.result = true) :
    legalResult b'.result = true := by
  cases h with
  | succeeds h => exact h.legal_result hb
  | _ => exact hb

/-- A command that clears ANYERR is CLRS. -/
theorem CommandEffect.eq_clrs (h : CommandEffect b c b' f) {st : Status} (hset : st.anyErr = true)
    (hclear : (f st).anyErr = false) : c = .legal .clrs := by
  cases h with
  | succeeds => exact absurd (hset.symm.trans hclear) (by decide)
  | clears => rfl
  | fails => exact absurd hclear (by simp)

end

/-- The registers after a step, by the event it serves: only the reset, a write to WORD or to a TXT register, and a
write to CMD change any (spec/20_memory.md R24, R25, spec/60_exceptions.md R99). -/
inductive StepEffect (s : State) : Block → Prop where
  | keeps : StepEffect s s.block
  | reset {rest : List Event} (hs : s.pending = .reset :: rest) : StepEffect s Block.reset
  | word {v : Word} {rest : List Event} (hs : s.pending = .access (.write 2#4 v) :: rest) :
    StepEffect s (s.setWord v).block
  | txt {k : Fin Config.blockChars} {v : Word} {rest : List Event}
    (hs : s.pending = .access (.write (BitVec.ofNat 4 (4 + k.val)) v) :: rest) :
    StepEffect s (s.setTxt k (lowByte v)).block
  | command {cmd : Word} {rest : List Event} {b : Block} {f : Status → Status}
    (hs : s.pending = .access (.write 0#4 cmd) :: rest) (h : CommandEffect s.block (decode cmd) b f) :
    StepEffect s { b with status := f s.block.status }

/-- A step that goes on has one of these effects. -/
theorem step_effect {s t : State} (h : step s = .next t) : StepEffect s t.block := by
  obtain ⟨-, hs⟩ | ⟨idx, rest, -, hs⟩ | ⟨idx, v, rest, hp, hs⟩ | ⟨rest, hp, hs⟩ | ⟨r, hs⟩ := step_cases s
  · cases hs.symm.trans h
    exact .keeps
  · cases hs.symm.trans h
    exact .keeps
  · obtain ⟨rfl, hw⟩ | ⟨rfl, hw⟩ | ⟨k, rfl, hw⟩ | ⟨-, hw⟩ :=
      regWrite_cases idx v ({ s with pending := rest }).advance
    · obtain ⟨b, f, hb, hc⟩ := command_effect v ({ s with pending := rest }).advance
      cases (hc s.block.status).symm.trans ((hs.trans hw).symm.trans h)
      exact .command hp hb
    · cases (hs.trans hw).symm.trans h
      exact .word hp
    · cases (hs.trans hw).symm.trans h
      exact .txt hp
    · cases (hs.trans hw).symm.trans h
      exact .keeps
  · cases hs.symm.trans h
    exact .reset hp
  · cases hs.symm.trans h

section
variable {s : State} {b : Block}

/-- A step that changes WORD serves a reset, a write of that value to WORD, or the word of DEC. -/
theorem StepEffect.word_writer (h : StepEffect s b) (hne : b.word ≠ s.block.word) :
    ∃ rest, s.pending = .reset :: rest ∨
      s.pending = .access (.write 2#4 b.word) :: rest ∨
      s.pending = .access (.write 0#4 (encode .dec)) :: rest := by
  cases h with
  | reset hs => exact ⟨_, .inl hs⟩
  | word hs => exact ⟨_, .inr (.inl hs)⟩
  | command hs hc => exact ⟨_, .inr (.inr (eq_encode_of_decode (hc.eq_dec hne) ▸ hs))⟩
  | _ => exact absurd rfl hne

/-- A step that changes TXT[k] serves a reset, a write to that register, or the word of ENC. -/
theorem StepEffect.txt_writer (h : StepEffect s b) {k : Fin Config.blockChars} (hne : b.txt k ≠ s.block.txt k) :
    ∃ rest, s.pending = .reset :: rest ∨
      (∃ v : Word, b.txt k = lowByte v ∧ s.pending = .access (.write (BitVec.ofNat 4 (4 + k.val)) v) :: rest) ∨
      s.pending = .access (.write 0#4 (encode .enc)) :: rest := by
  cases h with
  | reset hs => exact ⟨_, .inl hs⟩
  | txt hs =>
    rename_i j v rest
    rw [setTxt_txt] at hne ⊢
    obtain rfl : k = j := not_not.mp fun hk => hne (if_neg hk)
    exact ⟨rest, .inr (.inl ⟨v, if_pos rfl, hs⟩)⟩
  | command hs hc => exact ⟨_, .inr (.inr (eq_encode_of_decode (hc.eq_enc hne) ▸ hs))⟩
  | _ => exact absurd rfl hne

/-- A step that changes RESULT serves a reset or a word of FWD, INV, CNTX or CNTG. -/
theorem StepEffect.result_writer (h : StepEffect s b) (hne : b.result ≠ s.block.result) :
    ∃ rest, s.pending = .reset :: rest ∨ ∃ (imm : Byte) (op : BitVec 4), 3 ≤ op.toNat ∧ op.toNat ≤ 6 ∧
      s.pending = .access (.write 0#4 (0#16 ++ imm ++ 0#4 ++ op)) :: rest := by
  cases h with
  | reset hs => exact ⟨_, .inl hs⟩
  | command hs hc =>
    obtain ⟨i, hi, hlo, hhi⟩ := hc.eq_lookup hne
    exact ⟨_, .inr ⟨i.imm8, i.opcode, hlo, hhi, eq_encode_of_decode hi ▸ hs⟩⟩
  | _ => exact absurd rfl hne

/-- A step that changes STATUS serves a reset or a write to CMD. -/
theorem StepEffect.status_writer (h : StepEffect s b) (hne : b.status ≠ s.block.status) :
    ∃ rest, s.pending = .reset :: rest ∨ ∃ cmd, s.pending = .access (.write 0#4 cmd) :: rest := by
  cases h with
  | reset hs => exact ⟨_, .inl hs⟩
  | command hs _ => exact ⟨_, .inr ⟨_, hs⟩⟩
  | _ => exact absurd rfl hne

end

/-- The values an access makes the host record: a read's one value (spec/30_encoding.md R50). -/
def Access.valuesRead (a : Access) (b : Block) : List Word :=
  match a with
  | .read idx => [regRead idx b]
  | .write _ _ => []

/-- Every access is served: the events to come stay, the position moves on by one, and a read's value is recorded
(spec/10_state.md R18, spec/20_memory.md R35). -/
theorem serveAccess_goes_on (a : Access) (s : State) : ∃ t, serveAccess a s = .next t ∧ t.pending = s.pending ∧
    t.position = s.position + 1 ∧ t.reads = s.reads ++ a.valuesRead s.block := by
  cases a with
  | read idx => exact ⟨_, rfl, rfl, rfl, rfl⟩
  | write idx v =>
    obtain ⟨t, ht, hpend, hpos, hreads⟩ := regWrite_goes_on idx v s.advance
    exact ⟨t, ht, hpend, hpos, by simpa [Access.valuesRead] using hreads⟩

/-- A step of a loaded program serves its first access and leaves the rest of it loaded. -/
theorem step_withProgram (a : Access) (as : List Access) (s : State) : ∃ t : State,
    step (s.withProgram (a :: as)) = .next (t.withProgram as) ∧ t.pending = s.pending ∧
      t.position = s.position + 1 ∧ t.reads = s.reads ++ a.valuesRead s.block := by
  obtain ⟨t, ht, hpend, hpos, hreads⟩ := serveAccess_goes_on a (s.withProgram as)
  have hloaded : ({ t with pending := s.pending } : State).withProgram as = t := by
    change { t with pending := (s.withProgram as).pending } = t
    rw [← hpend]
  exact ⟨{ t with pending := s.pending }, ht.trans (congrArg _ hloaded.symm), rfl, hpos, hreads⟩

end Sys2Proof.Machine
end

section
/-! SUPPORT. The STATUS word as a number, and what reading its fields gives (spec/10_state.md R16). -/

namespace Sys2Proof.Machine

/-- An append of bit vectors as a number. -/
theorem toNat_append_eq_add {m n : Nat} (x : BitVec m) (y : BitVec n) :
    (x ++ y).toNat = x.toNat * 2 ^ n + y.toNat := by
  rw [BitVec.toNat_append, ← Nat.shiftLeft_add_eq_or_of_lt y.isLt, Nat.shiftLeft_eq]

/-- R16's read formula, `ANYERR<<31 | BYTE<<8 | POS<<4 | ERR`. -/
theorem toNat_toWord (st : Status) : st.toWord.toNat =
    (if st.anyErr then 2 ^ 31 else 0) + st.byte.toNat * 2 ^ 8 + st.pos.toNat * 2 ^ 4 + st.err.toNat := by
  change (st.anyErrBit ++ 0#15 ++ st.byte ++ 0#1 ++ st.pos ++ st.err).toNat = _
  have hany : st.anyErrBit.toNat = if st.anyErr then 1 else 0 := by
    unfold Status.anyErrBit
    split <;> rfl
  simp only [toNat_append_eq_add, hany, BitVec.toNat_ofNat]
  split <;> omega

/-- The fields a host extracts from the STATUS word are the register's. -/
@[simp] theorem statusErr_toWord (st : Status) : statusErr st.toWord = st.err := by
  apply BitVec.eq_of_toNat_eq
  rw [statusErr, BitVec.extractLsb'_toNat, toNat_toWord, Nat.shiftRight_eq_div_pow]
  split <;> omega

@[simp] theorem statusPos_toWord (st : Status) : statusPos st.toWord = st.pos := by
  apply BitVec.eq_of_toNat_eq
  rw [statusPos, BitVec.extractLsb'_toNat, toNat_toWord, Nat.shiftRight_eq_div_pow]
  split <;> omega

@[simp] theorem statusByte_toWord (st : Status) : statusByte st.toWord = st.byte := by
  apply BitVec.eq_of_toNat_eq
  rw [statusByte, BitVec.extractLsb'_toNat, toNat_toWord, Nat.shiftRight_eq_div_pow]
  split <;> omega

/-- ANYERR's one bit stands at place 0 of its field. -/
theorem anyErrBit_getLsbD (st : Status) (n : Nat) : st.anyErrBit.getLsbD n = (decide (n = 0) && st.anyErr) := by
  unfold Status.anyErrBit
  cases st.anyErr <;> simp

/-- Every bit of the STATUS word, by the field it stands in. -/
theorem toWord_getLsbD (st : Status) (n : Nat) : st.toWord.getLsbD n =
    if n < 4 then st.err.getLsbD n
    else if n < 7 then st.pos.getLsbD (n - 4)
    else if 8 ≤ n ∧ n < 16 then st.byte.getLsbD (n - 8)
    else decide (n = 31) && st.anyErr := by
  change (st.anyErrBit ++ 0#15 ++ st.byte ++ 0#1 ++ st.pos ++ st.err).getLsbD n = _
  simp only [BitVec.getLsbD_append, anyErrBit_getLsbD, BitVec.getLsbD_zero, Nat.sub_sub]
  -- bit 31 alone is ANYERR's; every other bit is found by the bounds of the fields
  by_cases h31 : n = 31
  · simp [h31]
  · grind

@[simp] theorem statusAnyErr_toWord (st : Status) : statusAnyErr st.toWord = st.anyErr := by
  rw [statusAnyErr, toWord_getLsbD]
  rfl

/-- Bit 7 of the STATUS word is reserved. -/
theorem toWord_getLsbD_seven (st : Status) : st.toWord.getLsbD 7 = false := by
  rw [toWord_getLsbD]
  rfl

/-- Bits 30..16 of the STATUS word are reserved. -/
theorem toWord_getLsbD_reserved (st : Status) {n : Nat} (hlo : 16 ≤ n) (hhi : n ≤ 30) :
    st.toWord.getLsbD n = false := by
  rw [toWord_getLsbD, if_neg (by omega), if_neg (by omega), if_neg (by omega), decide_eq_false (by omega),
    Bool.false_and]

end Sys2Proof.Machine
end

section
/-! SUPPORT. The state's obligations: the invariant, the writers of each register, the STATUS word, and the run of a host
program. -/

namespace Sys2Proof.Machine

/-- Settles O37: only a reset and a command write STATUS or RESULT, and both write legal contents. -/
theorem invariantKeptByStep : Obligations.InvariantKeptByStep := by
  intro s t ⟨hstatus, hresult⟩ h
  unfold State.Inv
  generalize t.block = b, step_effect h = hb
  cases hb with
  | keeps => exact ⟨hstatus, hresult⟩
  | reset => exact ⟨rfl, rfl⟩
  | word => exact ⟨hstatus, hresult⟩
  | txt => exact ⟨hstatus, hresult⟩
  | command _ hc => exact ⟨hc.legal_status _, hc.legal_result hresult⟩

/-- Settles O13: ERR, POS and BYTE are read off the word's number, ANYERR and the reserved bits off its bits. -/
theorem statusWordLayout : Obligations.StatusWordLayout := fun b =>
  ⟨toNat_toWord b.status, statusErr_toWord _, statusPos_toWord _, statusByte_toWord _, statusAnyErr_toWord _,
    toWord_getLsbD_seven _, fun _ => toWord_getLsbD_reserved _⟩

/-- Settles O31, by the three kinds of effect a command has. -/
theorem commandWriteSets : Obligations.CommandWriteSets := by
  intro i s
  obtain ⟨b, f, hb, h⟩ := exec_effect i s
  refine ⟨_, h s.block.status, ⟨rfl, rfl, rfl⟩, ?_⟩
  cases hb with
  | succeeds hw =>
    have hresult (hi : i = .nop ∨ i = .enc ∨ i = .dec ∨ i = .clrs) : b.result = s.block.result :=
      hw.result (by rcases hi with rfl | rfl | rfl | rfl <;> decide)
    exact ⟨fun _ => ⟨rfl, rfl, fun _ => rfl, fun hi => absurd hi hw.ne_clrs, hw.word, hw.txt, hresult⟩,
      fun hne => absurd rfl hne⟩
  | clears =>
    exact ⟨fun _ => ⟨rfl, rfl, fun hi => absurd rfl hi, fun _ => rfl, fun _ => rfl, fun _ _ => rfl, fun _ => rfl⟩,
      fun hne => absurd rfl hne⟩
  | fails he =>
    exact ⟨fun h0 => absurd h0 (ErrorName.code_ne_zero he), fun _ => ⟨⟨rfl, fun _ => rfl, rfl⟩, rfl⟩⟩

/-- Settles O33: a command's effect is the same from every STATUS, and only a success hands ANYERR on. -/
theorem noCommandReadsStatus : Obligations.NoCommandReadsStatus := by
  intro cmd s st
  obtain ⟨b, f, hb, h⟩ := command_effect cmd s
  refine ⟨_, _, h s.block.status, h st, ?_⟩
  generalize decode cmd = c at hb
  cases hb with
  | succeeds => exact ⟨rfl, fun hne => absurd rfl hne⟩
  | clears => exact ⟨rfl, fun hne => absurd rfl hne⟩
  | fails => exact ⟨rfl, fun _ => ⟨rfl, rfl⟩⟩

/-- Settles O35: of the commands CLRS alone clears ANYERR, and of the other events the reset alone. -/
theorem anyErrIsSticky : Obligations.AnyErrIsSticky := by
  intro s t h hset hclear
  generalize t.block = b, step_effect h = hb at hclear
  cases hb with
  | reset hs => exact ⟨_, .inl hs⟩
  | command hs hc =>
    have hcmd := eq_encode_of_decode (hc.eq_clrs hset hclear)
    exact ⟨_, .inr (hcmd ▸ hs)⟩
  | _ => exact absurd (hset.symm.trans hclear) (by decide)

/-- Settles O36: the four registers' writers, from what a step can do. -/
theorem registersChangeOnlyByTheirWriters : Obligations.RegistersChangeOnlyByTheirWriters := fun _ _ h =>
  ⟨(step_effect h).word_writer, fun _ => (step_effect h).txt_writer, (step_effect h).result_writer,
    (step_effect h).status_writer⟩

/-- Settles O40, by induction on the accesses: each is one step and leaves the later ones pending. -/
theorem hostProgramRunsToItsEnd : Obligations.HostProgramRunsToItsEnd := by
  intro accesses
  induction accesses with
  | nil => exact fun s => ⟨s, rfl, rfl, rfl, [], by simp, rfl⟩
  | cons a as ih =>
    intro s
    obtain ⟨t, ht, htpend, htpos, htreads⟩ := step_withProgram a as s
    obtain ⟨u, hu, hupend, hupos, values, hureads, hlen⟩ := ih t
    refine ⟨u, (core_run_succ as.length ht).trans hu, hupend.trans htpend, ?_, a.valuesRead s.block ++ values,
      ?_, ?_⟩
    · rw [hupos, htpos, List.length_cons]
      omega
    · rw [hureads, htreads, List.append_assoc]
    · cases a with
      | read idx => simpa [Access.valuesRead] using hlen
      | write idx v => simpa [Access.valuesRead] using hlen

end Sys2Proof.Machine
end

section
/-! SUPPORT. The register window by index: what RegRead returns, what a write leaves of each later read, and the
platform's byte-addressed map (spec/20_memory.md R22, R24, R25). -/

namespace Sys2Proof.Machine

/-- The indices of TXT0..TXT4 are 4 to 8 (spec/20_memory.md R23). -/
theorem txtIndex_mem (k : Fin Config.blockChars) :
    4 ≤ (BitVec.ofNat 4 (4 + k.val)).toNat ∧ (BitVec.ofNat 4 (4 + k.val)).toNat ≤ 8 := by
  revert k
  decide

/-- TXTk reads zero-extended at its index (spec/20_memory.md R24). -/
theorem regRead_txt (k : Fin Config.blockChars) (b : Block) :
    regRead (BitVec.ofNat 4 (4 + k.val)) b = zext32 (b.txt k) := by
  match k with
  | 0 => rfl
  | 1 => rfl
  | 2 => rfl
  | 3 => rfl
  | 4 => rfl

/-- RegRead returns STATUS (index 1), WORD (2), RESULT (3) or a TXT register (4 to 8), and 0 at CMD and at the unmapped
indices (spec/20_memory.md R24). -/
theorem regRead_cases (idx : BitVec 4) :
    (idx = 1#4 ∧ ∀ b, regRead idx b = b.status.toWord) ∨
    (idx = 2#4 ∧ ∀ b, regRead idx b = b.word) ∨
    (idx = 3#4 ∧ ∀ b, regRead idx b = zext32 b.result) ∨
    (∃ k : Fin Config.blockChars, idx = BitVec.ofNat 4 (4 + k.val) ∧ ∀ b, regRead idx b = zext32 (b.txt k)) ∨
    ((idx = 0#4 ∨ 9 ≤ idx.toNat) ∧ ∀ b, regRead idx b = 0x00000000#32) := by
  obtain ⟨n⟩ := idx
  match n with
  | 0 => exact .inr (.inr (.inr (.inr ⟨.inl rfl, fun _ => rfl⟩)))
  | 1 => exact .inl ⟨rfl, fun _ => rfl⟩
  | 2 => exact .inr (.inl ⟨rfl, fun _ => rfl⟩)
  | 3 => exact .inr (.inr (.inl ⟨rfl, fun _ => rfl⟩))
  | 4 => exact .inr (.inr (.inr (.inl ⟨0, rfl, regRead_txt 0⟩)))
  | 5 => exact .inr (.inr (.inr (.inl ⟨1, rfl, regRead_txt 1⟩)))
  | 6 => exact .inr (.inr (.inr (.inl ⟨2, rfl, regRead_txt 2⟩)))
  | 7 => exact .inr (.inr (.inr (.inl ⟨3, rfl, regRead_txt 3⟩)))
  | 8 => exact .inr (.inr (.inr (.inl ⟨4, rfl, regRead_txt 4⟩)))
  | ⟨m + 9, _⟩ => exact .inr (.inr (.inr (.inr ⟨.inr (Nat.le_add_left 9 m), fun _ => rfl⟩)))

/-- An unmapped index reads 0 (spec/20_memory.md R24). -/
theorem regRead_unmapped {idx : BitVec 4} (h : 9 ≤ idx.toNat) (b : Block) : regRead idx b = 0x00000000#32 := by
  obtain ⟨rfl, -⟩ | ⟨rfl, -⟩ | ⟨rfl, -⟩ | ⟨k, rfl, -⟩ | ⟨-, hr⟩ := regRead_cases idx
  · exact absurd h (by decide)
  · exact absurd h (by decide)
  · exact absurd h (by decide)
  · exact absurd (txtIndex_mem k).2 (Nat.not_le.mpr h)
  · exact hr b

/-- A write to an unmapped index has no effect (spec/20_memory.md R25). -/
theorem regWrite_unmapped {idx : BitVec 4} (h : 9 ≤ idx.toNat) (v : Word) (s : State) :
    regWrite idx v s = .next s := by
  obtain ⟨rfl, -⟩ | ⟨rfl, -⟩ | ⟨k, rfl, -⟩ | ⟨-, hw⟩ := regWrite_cases idx v s
  · exact absurd h (by decide)
  · exact absurd h (by decide)
  · exact absurd (txtIndex_mem k).2 (Nat.not_le.mpr h)
  · exact hw

/-- A write of WORD is read back at index 2, and every other index reads as before. -/
theorem regRead_setWord (j : BitVec 4) (v : Word) (s : State) :
    regRead j (s.setWord v).block = if j = 2#4 then v else regRead j s.block := by
  split
  case isTrue hj => rw [hj]; rfl
  case isFalse hj =>
    obtain ⟨-, hr⟩ | ⟨hj2, -⟩ | ⟨-, hr⟩ | ⟨k, -, hr⟩ | ⟨-, hr⟩ := regRead_cases j
    case inr.inl => exact absurd hj2 hj
    all_goals exact (hr _).trans (hr s.block).symm

/-- A write of TXT[k] is read back, zero-extended, at its index, and every other index reads as before. -/
theorem regRead_setTxt (j : BitVec 4) (k : Fin Config.blockChars) (v : Byte) (s : State) :
    regRead j (s.setTxt k v).block = if j = BitVec.ofNat 4 (4 + k.val) then zext32 v else regRead j s.block := by
  split
  case isTrue hj => rw [hj, regRead_txt, setTxt_txt, if_pos rfl]
  case isFalse hj =>
    obtain ⟨-, hr⟩ | ⟨-, hr⟩ | ⟨-, hr⟩ | ⟨i, hi, hr⟩ | ⟨-, hr⟩ := regRead_cases j
    case inr.inr.inr.inl =>
      have hik : i ≠ k := fun heq => hj (heq ▸ hi)
      rw [hr, hr, setTxt_txt, if_neg hik]
    all_goals exact (hr _).trans (hr s.block).symm

/-- The low byte of a word, extended again, is the word modulo 256. -/
theorem zext32_lowByte (v : Word) : zext32 (lowByte v) = BitVec.ofNat 32 (v.toNat % 256) := by
  apply BitVec.eq_of_toNat_eq
  simp only [zext32, lowByte, BitVec.toNat_setWidth, BitVec.extractLsb'_toNat, Nat.shiftRight_zero, BitVec.toNat_ofNat]

/-- The word index decoded from a register's byte offset is the register's (spec/20_memory.md R22). -/
theorem indexOfOffset_byteOffset (idx : BitVec 4) : indexOfOffset (byteOffset idx) = idx := by
  apply BitVec.eq_of_toNat_eq
  simp only [indexOfOffset, byteOffset, BitVec.extractLsb'_toNat, BitVec.toNat_ofNat, Nat.shiftRight_eq_div_pow]
  omega

/-- An access that is not four bytes at a multiple of 4 presents no register access (spec/20_memory.md R27). -/
theorem busEvent_otherShape {offset bytes : Nat} (store : Option Word) (h : bytes ≠ 4 ∨ offset % 4 ≠ 0) :
    ∃ shape, busEvent offset bytes store = .otherShape shape := by
  unfold busEvent
  split_ifs with hlt hgt hoff
  · exact ⟨_, rfl⟩
  · exact ⟨_, rfl⟩
  · exact ⟨_, rfl⟩
  · omega

/-- Four bytes at a register's offset are the access of that register (spec/20_memory.md R22). -/
theorem busEvent_byteOffset (idx : BitVec 4) (v : Word) :
    busEvent (byteOffset idx) 4 (some v) = .access (.write idx v) ∧
    busEvent (byteOffset idx) 4 none = .access (.read idx) := by
  have haligned : ¬ byteOffset idx % 4 ≠ 0 := not_not.mpr (Nat.mul_mod_right 4 idx.toNat)
  simp only [busEvent, Nat.lt_irrefl, if_false, if_neg haligned, indexOfOffset_byteOffset, and_self]

end Sys2Proof.Machine
end

section
/-! SUPPORT. One step by its oldest event, which events it serves, and commands that a repetition leaves as they are. -/

namespace Sys2Proof.Machine

/-- An idle block keeps its state (spec/60_exceptions.md R99). -/
theorem step_of_idle {s : State} (h : s.pending = []) : step s = .next s := by
  simp only [step, h]

/-- A step serves the oldest event (spec/20_memory.md R35). -/
theorem step_of_pending {s : State} {e : Event} {rest : List Event} (h : s.pending = e :: rest) :
    step s = serve e { s with pending := rest } := by
  simp only [step, h]

/-- An event goes on exactly when it is an access of the one host or the reset (spec/20_memory.md R27,
spec/60_exceptions.md R98, spec/70_reset_and_hazards.md R108). -/
theorem serve_goes_on_iff (e : Event) (s : State) : (∃ t, serve e s = .next t) ↔ e.served = true := by
  have refused (r : Refusal) : ¬ ∃ t : State, (.refused r : Host.Outcome State Fault Refusal) = .next t := nofun
  cases e with
  | access a =>
    obtain ⟨t, ht, -⟩ := serveAccess_goes_on a s
    exact iff_of_true ⟨t, ht⟩ rfl
  | reset => exact iff_of_true ⟨_, rfl⟩ rfl
  | otherShape shape => exact iff_of_false (refused _) Bool.false_ne_true
  | secondHost a => exact iff_of_false (refused _) Bool.false_ne_true
  | duringReset a => exact iff_of_false (refused _) Bool.false_ne_true

/-- Done a second time at once, the operation goes on to the state it has just left (spec/20_memory.md R34). -/
def Repeats (op : State → Host.Outcome State Fault Refusal) : Prop :=
  ∀ s, ∃ t, op s = .next t ∧ op t = .next t

/-- An error that does not depend on the state fails the same way again (spec/60_exceptions.md R94). -/
theorem repeats_raise (e : ErrorName) (pos : BitVec 3) (byte : Byte) : Repeats (raise e pos byte) :=
  fun _ => ⟨_, rfl, rfl⟩

/-- A result that does not depend on the state is written again. -/
theorem repeats_setResult (v : Byte) : Repeats (fun s => ok (s.setResult v)) :=
  fun _ => ⟨_, rfl, rfl⟩

/-- A lookup that succeeds or fails by its operand alone repeats (FWD, INV and CNTX: spec/40_alphabet.md R57, R58,
spec/42_padding_counter.md R65). -/
theorem repeats_lookup {p : Prop} [Decidable p] (v : p → Byte) (e : ErrorName) (pos : BitVec 3) (byte : Byte) :
    Repeats (fun s => if h : p then ok (s.setResult (v h)) else raise e pos byte s) := by
  split
  · exact repeats_setResult _
  · exact repeats_raise _ _ _

/-- DEC reads TXT, which it never writes: it finds the same value, or the same invalid character, again. -/
theorem repeats_execDec : Repeats execDec := by
  intro s
  cases h : firstInvalid s.block.txt with
  | none =>
    have hdec (t : State) (ht : t.block.txt = s.block.txt) :
        execDec t = ok (t.setWord (decodeAccumulate s.block.txt)) := by
      simp only [execDec, ht, h]
    exact ⟨_, hdec s rfl, hdec _ rfl⟩
  | some j =>
    have hdec (t : State) (ht : t.block.txt = s.block.txt) :
        execDec t = raise .invalidCharacter (BitVec.ofNat 3 j.val) (s.block.txt j) t := by
      simp only [execDec, ht, h]
    exact ⟨_, hdec s rfl, hdec _ rfl⟩

/-- No command writes what it reads, so each repeats its result (spec/20_memory.md R34). -/
theorem repeats_exec (i : Instr) : Repeats (exec i) := by
  cases i with
  | nop => exact fun _ => ⟨_, rfl, rfl⟩
  | enc => exact fun _ => ⟨_, rfl, rfl⟩
  | dec => exact repeats_execDec
  | fwd imm => exact repeats_lookup (fun h => fwdRom ⟨imm.toNat, h⟩) _ _ _
  | inv imm => exact repeats_lookup (fun _ => (invRom imm).value.setWidth 8) _ _ _
  | cntx imm => exact repeats_lookup (fun _ => imm - counterBase) _ _ _
  | cntg imm => exact repeats_setResult _
  | clrs => exact fun _ => ⟨_, rfl, rfl⟩

/-- Every word repeats: as its command, or as its rejection. -/
theorem repeats_command (cmd : Word) : Repeats (command cmd) := by
  unfold command
  cases decode cmd with
  | legal i => exact repeats_exec i
  | illegal cause => exact repeats_raise _ _ _

end Sys2Proof.Machine
end

section
/-! SUPPORT. The obligations of the register window and of one step's events. -/

namespace Sys2Proof.Machine

/-- Settles O12: the four effects of a write, and what each leaves of every read. -/
theorem readAfterWrite : Obligations.ReadAfterWrite := by
  intro idx j v s hidx
  obtain ⟨hcmd, -⟩ | ⟨rfl, hw⟩ | ⟨k, rfl, hw⟩ | ⟨hkept, hw⟩ := regWrite_cases idx v s
  · exact absurd hcmd hidx
  · exact ⟨_, hw, regRead_setWord j v s⟩
  · have hword : BitVec.ofNat 4 (4 + k.val) ≠ 2#4 := fun heq => absurd (heq ▸ (txtIndex_mem k).1) (by decide)
    refine ⟨_, hw, ?_⟩
    rw [if_neg hword, if_pos (txtIndex_mem k), ← zext32_lowByte]
    exact regRead_setTxt j k (lowByte v) s
  · have hword : idx ≠ 2#4 := by
      rintro rfl
      exact absurd hkept (by decide)
    have htxt : ¬ (4 ≤ idx.toNat ∧ idx.toNat ≤ 8) := by
      obtain rfl | rfl | h9 := hkept
      · decide
      · decide
      · omega
    refine ⟨_, hw, ?_⟩
    rw [if_neg hword, if_neg htxt]
    split
    case isTrue hj => rw [hj]
    case isFalse => rfl

/-- Settles O34: a command's result, or its failure, does not depend on what it writes. -/
theorem repeatingACommandLeavesTheState : Obligations.RepeatingACommandLeavesTheState :=
  fun cmd => repeats_command cmd

/-- Settles O39: an event goes on exactly when it is served, and no fault exists. -/
theorem stepStopsOnlyOnRefusedEvents : Obligations.StepStopsOnlyOnRefusedEvents := by
  refine fun s => ⟨?_, nofun⟩
  cases h : s.pending with
  | nil => exact iff_of_true ⟨s, step_of_idle h⟩ nofun
  | cons e rest =>
    rw [step_of_pending h, serve_goes_on_iff]
    exact ⟨fun hserved _ _ heq => (List.cons.inj heq).1 ▸ hserved, fun hall => hall e rest rfl⟩

/-- Settles O8: the events that are served, one by one. -/
theorem stepServesTheOldestEvent : Obligations.StepServesTheOldestEvent :=
  ⟨fun _ _ _ h => step_of_pending h, fun _ _ _ _ h => step_of_pending h, fun _ _ h => step_of_pending h,
    fun _ h => step_of_idle h⟩

/-- Settles O9: the refused events, and the shapes a byte-addressed bus cannot present. -/
theorem refusedAccesses : Obligations.RefusedAccesses := by
  refine ⟨fun _ _ _ h => step_of_pending h, fun _ _ _ h => step_of_pending h, ?_, busEvent_byteOffset⟩
  intro s rest offset bytes store hshape h
  obtain ⟨shape, hbus⟩ := busEvent_otherShape store hshape
  rw [hbus] at h
  exact ⟨shape, step_of_pending h⟩

/-- Settles O10: the mapped indices read by definition, the others 0. -/
theorem regReadValues : Obligations.RegReadValues := fun b =>
  ⟨rfl, rfl, rfl, rfl, rfl, rfl, rfl, rfl, rfl, fun _ h => regRead_unmapped h b⟩

/-- Settles O11: the mapped indices write by definition, the others nothing. -/
theorem regWriteEffects : Obligations.RegWriteEffects := fun v s =>
  ⟨rfl, rfl, rfl, rfl, rfl, rfl, rfl, rfl, rfl, fun _ h => regWrite_unmapped h v s⟩

end Sys2Proof.Machine
end

section
/-! SUPPORT. The command word by its fields: each check of the decoder, what decoding an encoding gives, and which words
are legal (spec/30_encoding.md R41 to R49). -/

namespace Sys2Proof

/-- The opcodes that take no operand are not reserved ones (R43). -/
theorem lt_of_takesNoOperand {op : BitVec 4} (h : takesNoOperand op = true) : op.toNat < 8 := by
  revert op
  decide

section
variable {cmd : Word} {op : BitVec 4}

/-- R48's first check, a reserved opcode (R44). -/
theorem decode_of_reservedOpcode (hop : 8 ≤ (opField cmd).toNat) : decode cmd = .illegal .reservedOpcode :=
  if_pos hop

/-- R48's second check, a nonzero reserved field (R45). -/
theorem decode_of_reservedBits (hop : (opField cmd).toNat < 8) (hrsv : rsv0Field cmd ≠ 0#4 ∨ rsv1Field cmd ≠ 0#16) :
    decode cmd = .illegal .reservedBits := by
  rw [decode, if_neg (Nat.not_le.mpr hop), if_pos hrsv]

/-- R48's third check, an operand on NOP, ENC, DEC or CLRS (R46). -/
theorem decode_of_operandNotAllowed (hrsv0 : rsv0Field cmd = 0#4) (hrsv1 : rsv1Field cmd = 0#16)
    (hnone : takesNoOperand (opField cmd) = true) (himm : imm8Field cmd ≠ 0#8) :
    decode cmd = .illegal .operandNotAllowed := by
  rw [decode, if_neg (Nat.not_le.mpr (lt_of_takesNoOperand hnone)), if_neg (by simp [hrsv0, hrsv1]),
    if_pos ⟨hnone, himm⟩]

/-- R48's fourth check, FWD with an operand of 85 or more (R46). -/
theorem decode_of_operandOutOfRange (hrsv0 : rsv0Field cmd = 0#4) (hrsv1 : rsv1Field cmd = 0#16)
    (hop : opField cmd = 3#4) (himm : 85 ≤ (imm8Field cmd).toNat) : decode cmd = .illegal .operandOutOfRange := by
  rw [decode, hop, if_neg (by decide), if_neg (by simp [hrsv0, hrsv1]), if_neg (by simp [takesNoOperand]),
    if_pos ⟨rfl, himm⟩]

/-- Past R48's checks a word is the command of its opcode. -/
theorem decode_eq_commandOf (hrsv0 : rsv0Field cmd = 0#4) (hrsv1 : rsv1Field cmd = 0#16) (hop : opField cmd = op)
    (hlow : op.toNat < 8) (hnone : takesNoOperand op = true → imm8Field cmd = 0#8)
    (hfwd : op = 3#4 → (imm8Field cmd).toNat < 85) : decode cmd = commandOf op (imm8Field cmd) := by
  subst hop
  rw [decode, if_neg (Nat.not_le.mpr hlow), if_neg (by simp [hrsv0, hrsv1]), if_neg fun h => h.2 (hnone h.1),
    if_neg fun h => Nat.not_lt.mpr h.2 (hfwd h.1)]

/-- A word of NOP, ENC, DEC or CLRS with nothing but its opcode. -/
theorem decode_of_plainOpcode (hrsv0 : rsv0Field cmd = 0#4) (hrsv1 : rsv1Field cmd = 0#16) (hop : opField cmd = op)
    (hnone : takesNoOperand op = true) (himm : imm8Field cmd = 0#8) : decode cmd = commandOf op 0#8 := by
  have hcommand := decode_eq_commandOf hrsv0 hrsv1 hop (lt_of_takesNoOperand hnone) (fun _ => himm)
    (fun _ => by simp [himm])
  rwa [himm] at hcommand

/-- A word of INV, CNTX or CNTG, whose every operand is legal. -/
theorem decode_of_operandOpcode (hrsv0 : rsv0Field cmd = 0#4) (hrsv1 : rsv1Field cmd = 0#16)
    (hop : opField cmd = op) (hrange : 4 ≤ op.toNat ∧ op.toNat ≤ 6) : decode cmd = commandOf op (imm8Field cmd) := by
  have hothers : ∀ op : BitVec 4, 4 ≤ op.toNat ∧ op.toNat ≤ 6 →
      op.toNat < 8 ∧ takesNoOperand op = false ∧ op ≠ 3#4 := by decide
  obtain ⟨hlow, hsome, hne⟩ := hothers op hrange
  exact decode_eq_commandOf hrsv0 hrsv1 hop hlow (fun hnone => absurd (hsome.symm.trans hnone) Bool.false_ne_true)
    (fun heq => absurd heq hne)

end

/-- The fields of an encoded command, whichever it is (R41, R49). -/
theorem encodedFields (i : Instr) : Laws.EncodedFields.Statement i := Laws.EncodedFields.of_pattern i.imm8 i.opcode

/-- The opcodes of commands are 0 to 7 (R43). -/
theorem Instr.opcode_lt (i : Instr) : i.opcode.toNat < 8 := by
  cases i with
  | _ => simp [Instr.opcode]

/-- A command of an opcode that takes no operand has operand 0 (R41). -/
theorem Instr.imm8_eq_zero {i : Instr} (h : takesNoOperand i.opcode = true) : i.imm8 = 0#8 := by
  cases i with
  | nop => rfl
  | enc => rfl
  | dec => rfl
  | clrs => rfl
  | _ => exact absurd h (by simp [Instr.opcode, takesNoOperand])

/-- R48's `case op of` gives each command back from its opcode and operand. -/
theorem commandOf_opcode_imm8 (i : Instr) : commandOf i.opcode i.imm8 = .legal i := by
  cases i with
  | _ => rfl

/-- The one ill-formed command is FWD with an operand of 85 or more (R42). -/
theorem Instr.wellFormed_iff (i : Instr) : i.wellFormed = true ↔ (i.opcode = 3#4 → i.imm8.toNat < 85) := by
  cases i with
  | fwd imm => simp [Instr.wellFormed, Instr.opcode, Instr.imm8]
  | _ => simp [Instr.wellFormed, Instr.opcode]

/-- A well-formed command's encoding passes the checks; FWD's fails the last one otherwise. -/
theorem decode_encode (i : Instr) :
    decode (encode i) = if i.wellFormed then .legal i else .illegal .operandOutOfRange := by
  obtain ⟨hop, hrsv0, himm, hrsv1⟩ := encodedFields i
  by_cases hwf : i.wellFormed = true
  · have hcommand := decode_eq_commandOf hrsv0 hrsv1 hop i.opcode_lt (fun h => himm.trans (Instr.imm8_eq_zero h))
      (fun h => himm ▸ i.wellFormed_iff.mp hwf h)
    rw [if_pos hwf, hcommand, himm, commandOf_opcode_imm8]
  · obtain ⟨hfwd, hrange⟩ : i.opcode = 3#4 ∧ 85 ≤ i.imm8.toNat := by simpa [i.wellFormed_iff] using hwf
    rw [if_neg hwf]
    exact decode_of_operandOutOfRange hrsv0 hrsv1 (hop.trans hfwd) (himm ▸ hrange)

/-- The legal words are the encodings of the well-formed commands (R47). -/
theorem decode_eq_legal_iff {cmd : Word} {i : Instr} :
    decode cmd = .legal i ↔ encode i = cmd ∧ i.wellFormed = true := by
  constructor
  · intro h
    have hencode := eq_encode_of_decode h
    refine ⟨hencode.symm, by_contra fun hill => ?_⟩
    rw [hencode, decode_encode, if_neg hill] at h
    cases h
  · rintro ⟨rfl, hwf⟩
    rw [decode_encode, if_pos hwf]

end Sys2Proof
end

section
/-! SUPPORT. R47's count of the legal words: the operands each opcode allows, and the words they make. -/

namespace Sys2Proof

/-- The bit vectors of the numbers below n, in order. -/
def bitVecsBelow (w n : Nat) : List (BitVec w) := (List.range n).map (BitVec.ofNat w)

theorem mem_bitVecsBelow {w n : Nat} {x : BitVec w} : x ∈ bitVecsBelow w n ↔ x.toNat < n := by
  simp only [bitVecsBelow, List.mem_map, List.mem_range]
  constructor
  · rintro ⟨k, hk, rfl⟩
    exact (Nat.mod_le _ _).trans_lt hk
  · exact fun hx => ⟨x.toNat, hx, by simp⟩

theorem nodup_bitVecsBelow {w n : Nat} (hn : n ≤ 2 ^ w) : (bitVecsBelow w n).Nodup := by
  refine List.nodup_range.map_on fun a ha b hb hab => ?_
  have hlt {k : Nat} (hk : k ∈ List.range n) : k < 2 ^ w := (List.mem_range.mp hk).trans_le hn
  simpa [Nat.mod_eq_of_lt (hlt ha), Nat.mod_eq_of_lt (hlt hb)] using congrArg BitVec.toNat hab

/-- How many operands are legal for an opcode, the first that many bytes (R42, R47). -/
def operandCount (op : BitVec 4) : Nat := [1, 1, 1, 85, 256, 256, 256, 1].getD op.toNat 0

theorem operandCount_le (op : BitVec 4) : operandCount op ≤ 2 ^ 8 := by
  revert op
  decide

/-- The legal words of an opcode (R47). -/
def legalWords (op : BitVec 4) : List Word :=
  (bitVecsBelow 8 (operandCount op)).map fun imm => 0#16 ++ imm ++ 0#4 ++ op

/-- A well-formed command has one of its opcode's legal operands. -/
theorem Instr.imm8_lt_operandCount {i : Instr} (h : i.wellFormed = true) : i.imm8.toNat < operandCount i.opcode := by
  cases i with
  | fwd imm => exact of_decide_eq_true h
  | inv imm => exact imm.isLt
  | cntx imm => exact imm.isLt
  | cntg imm => exact imm.isLt
  | _ => exact Nat.one_pos

/-- Each legal operand of an opcode makes a well-formed command. -/
theorem exists_command_of_lt_operandCount {op : BitVec 4} {imm : Byte} (h : imm.toNat < operandCount op) :
    ∃ i : Instr, i.wellFormed = true ∧ i.opcode = op ∧ i.imm8 = imm := by
  have hzero : imm.toNat < 1 → 0#8 = imm := fun h1 => BitVec.eq_of_toNat_eq (Nat.lt_one_iff.mp h1).symm
  obtain ⟨n⟩ := op
  match n with
  | 0 => exact ⟨.nop, rfl, rfl, hzero h⟩
  | 1 => exact ⟨.enc, rfl, rfl, hzero h⟩
  | 2 => exact ⟨.dec, rfl, rfl, hzero h⟩
  | 3 => exact ⟨.fwd imm, decide_eq_true h, rfl, rfl⟩
  | 4 => exact ⟨.inv imm, rfl, rfl, rfl⟩
  | 5 => exact ⟨.cntx imm, rfl, rfl, rfl⟩
  | 6 => exact ⟨.cntg imm, rfl, rfl, rfl⟩
  | 7 => exact ⟨.clrs, rfl, rfl, hzero h⟩
  | ⟨m + 8, _⟩ => exact absurd h (Nat.not_lt_zero _)

/-- An opcode's words are exactly those that decode to a command of it. -/
theorem mem_legalWords {op : BitVec 4} {cmd : Word} :
    cmd ∈ legalWords op ↔ ∃ i, decode cmd = .legal i ∧ i.opcode = op := by
  simp only [legalWords, List.mem_map, mem_bitVecsBelow, decode_eq_legal_iff]
  constructor
  · rintro ⟨imm, himm, rfl⟩
    obtain ⟨i, hwf, rfl, rfl⟩ := exists_command_of_lt_operandCount himm
    exact ⟨i, ⟨rfl, hwf⟩, rfl⟩
  · rintro ⟨i, ⟨rfl, hwf⟩, rfl⟩
    exact ⟨i.imm8, Instr.imm8_lt_operandCount hwf, rfl⟩

theorem nodup_legalWords (op : BitVec 4) : (legalWords op).Nodup := by
  refine (nodup_bitVecsBelow (operandCount_le op)).map fun a b hab => ?_
  have himm8 (imm : Byte) : imm8Field (0#16 ++ imm ++ 0#4 ++ op) = imm := by
    obtain ⟨-, -, himm, -⟩ := Laws.EncodedFields.of_pattern imm op
    exact himm
  rw [← himm8 a, ← himm8 b]
  exact congrArg imm8Field hab

theorem length_legalWords (op : BitVec 4) : (legalWords op).length = operandCount op := by
  simp [legalWords, bitVecsBelow]

/-- The legal words, opcode by opcode (R47). -/
def allLegalWords : List Word := (bitVecsBelow 4 16).flatMap legalWords

theorem mem_allLegalWords {cmd : Word} : cmd ∈ allLegalWords ↔ ∃ i, decode cmd = .legal i := by
  simp only [allLegalWords, List.mem_flatMap, mem_legalWords, mem_bitVecsBelow]
  exact ⟨fun ⟨_, _, i, hi, _⟩ => ⟨i, hi⟩, fun ⟨i, hi⟩ => ⟨i.opcode, i.opcode.isLt, i, hi, rfl⟩⟩

/-- No word is listed twice: a word has one opcode. -/
theorem nodup_allLegalWords : allLegalWords.Nodup := by
  refine List.nodup_flatMap.mpr ⟨fun op _ => nodup_legalWords op, ?_⟩
  refine (nodup_bitVecsBelow (Nat.le_refl 16)).imp fun {a b} hne cmd ha hb => hne ?_
  obtain ⟨i, hi, rfl⟩ := mem_legalWords.mp ha
  obtain ⟨j, hj, rfl⟩ := mem_legalWords.mp hb
  cases hi.symm.trans hj
  rfl

theorem length_allLegalWords : allLegalWords.length = 857 := by
  rw [allLegalWords, List.length_flatMap, List.map_congr_left fun op _ => length_legalWords op]
  decide

end Sys2Proof
end

section
/-! SUPPORT. R43's match and mask rows, field by field. -/

namespace Sys2Proof

/-- The rows are those of the opcodes 0 to 7 (R43). -/
theorem lt_of_opcodeRow {n : Nat} {r : OpcodeRow} (hr : opcodeRows[n]? = some r) : n < 8 :=
  (List.getElem?_eq_some_iff.mp hr).1

/-- Two words with the same four fields are equal (R41). -/
theorem eq_iff_fields (a b : Word) : a = b ↔ opField a = opField b ∧ rsv0Field a = rsv0Field b ∧
    imm8Field a = imm8Field b ∧ rsv1Field a = rsv1Field b := by
  constructor
  · rintro rfl
    exact ⟨rfl, rfl, rfl, rfl⟩
  · rintro ⟨hop, hrsv0, himm, hrsv1⟩
    rw [← fields_reassemble a, hop, hrsv0, himm, hrsv1, fields_reassemble]

/-- A mask applies to each field on its own (R43). -/
theorem fields_and (a mask : Word) :
    opField (a &&& mask) = opField a &&& opField mask ∧ rsv0Field (a &&& mask) = rsv0Field a &&& rsv0Field mask ∧
      imm8Field (a &&& mask) = imm8Field a &&& imm8Field mask ∧
      rsv1Field (a &&& mask) = rsv1Field a &&& rsv1Field mask :=
  ⟨BitVec.extractLsb'_and .., BitVec.extractLsb'_and .., BitVec.extractLsb'_and .., BitVec.extractLsb'_and ..⟩

/-- A row tests all of OP, RSV0 and RSV1 against its opcode and zeros, and IMM8 against 0 where no operand is allowed
(R43). -/
theorem opcodeRow_fields : ∀ n : Fin 8,
    let r := opcodeRows[n.val]
    (opField r.mask = BitVec.allOnes 4 ∧ opField r.matchBits = BitVec.ofNat 4 n.val) ∧
    (rsv0Field r.mask = BitVec.allOnes 4 ∧ rsv0Field r.matchBits = 0#4) ∧
    (imm8Field r.mask = (if takesNoOperand (BitVec.ofNat 4 n.val) then BitVec.allOnes 8 else 0#8) ∧
      imm8Field r.matchBits = 0#8) ∧
    (rsv1Field r.mask = BitVec.allOnes 16 ∧ rsv1Field r.matchBits = 0#16) := by
  decide

/-- A word matches row n exactly when its opcode is n, its reserved fields are 0, and so is IMM8 where no operand is
allowed (R43). -/
theorem matchesWord_iff {n : Nat} {r : OpcodeRow} (hr : opcodeRows[n]? = some r) (cmd : Word) :
    r.matchesWord cmd = true ↔ opField cmd = BitVec.ofNat 4 n ∧ rsv0Field cmd = 0#4 ∧
      (takesNoOperand (BitVec.ofNat 4 n) = true → imm8Field cmd = 0#8) ∧ rsv1Field cmd = 0#16 := by
  obtain ⟨hn, rfl⟩ := List.getElem?_eq_some_iff.mp hr
  obtain ⟨⟨hop, hop'⟩, ⟨hrsv0, hrsv0'⟩, ⟨himm, himm'⟩, hrsv1, hrsv1'⟩ := opcodeRow_fields ⟨n, hn⟩
  obtain ⟨handop, handrsv0, handimm, handrsv1⟩ := fields_and cmd opcodeRows[n].mask
  rw [OpcodeRow.matchesWord, beq_iff_eq, eq_iff_fields, handop, handrsv0, handimm, handrsv1, hop, hop', hrsv0, hrsv0',
    himm, himm', hrsv1, hrsv1', BitVec.and_allOnes, BitVec.and_allOnes, BitVec.and_allOnes]
  split
  case isTrue hnone => simp only [BitVec.and_allOnes, hnone, true_imp_iff]
  case isFalse hsome => simp only [BitVec.and_zero, hsome, Bool.false_eq_true, false_imp_iff]

/-- No word matches two rows: the row's number is the word's opcode. -/
theorem opcodeRow_unique {cmd : Word} {n : Nat} {r : OpcodeRow} (hr : opcodeRows[n]? = some r)
    (h : r.matchesWord cmd = true) : n = (opField cmd).toNat := by
  obtain ⟨hop, -⟩ := (matchesWord_iff hr cmd).mp h
  have hn := lt_of_opcodeRow hr
  rw [hop, BitVec.toNat_ofNat]
  omega

/-- A legal word matches the row of its command's opcode. -/
theorem exists_row_of_decode {cmd : Word} {i : Instr} (h : decode cmd = .legal i) :
    ∃ r, opcodeRows[i.opcode.toNat]? = some r ∧ r.matchesWord cmd = true := by
  obtain ⟨rfl, -⟩ := decode_eq_legal_iff.mp h
  obtain ⟨hop, hrsv0, himm, hrsv1⟩ := encodedFields i
  have hlow : i.opcode.toNat < opcodeRows.length := i.opcode_lt
  have hrow : opcodeRows[i.opcode.toNat]? = some opcodeRows[i.opcode.toNat] := List.getElem?_eq_getElem _
  refine ⟨_, hrow, (matchesWord_iff hrow _).mpr ?_⟩
  rw [BitVec.ofNat_toNat, BitVec.setWidth_eq]
  exact ⟨hop, hrsv0, fun hnone => himm.trans (Instr.imm8_eq_zero hnone), hrsv1⟩

/-- A word that matches a row is a command of that opcode, or FWD's rejection of an operand above 84 (R43, R46). -/
theorem decode_of_matchesWord {cmd : Word} {n : Nat} {r : OpcodeRow} (hr : opcodeRows[n]? = some r)
    (h : r.matchesWord cmd = true) :
    (∃ i, decode cmd = .legal i ∧ i.opcode.toNat = n) ∨
    (n = 3 ∧ 84 < (imm8Field cmd).toNat ∧ decode cmd = .illegal .operandOutOfRange) := by
  have hn := opcodeRow_unique hr h
  obtain ⟨hop, hrsv0, hnone, hrsv1⟩ := (matchesWord_iff hr cmd).mp h
  rw [← hop] at hnone
  by_cases hfwd : opField cmd = 3#4 ∧ 84 < (imm8Field cmd).toNat
  · obtain ⟨h3, hrange⟩ := hfwd
    exact .inr ⟨by rw [hn, h3]; rfl, hrange, decode_of_operandOutOfRange hrsv0 hrsv1 h3 hrange⟩
  · have hlow : (opField cmd).toNat < 8 := hn ▸ lt_of_opcodeRow hr
    have hcommand := decode_eq_commandOf hrsv0 hrsv1 rfl hlow hnone fun h3 =>
      Nat.lt_succ_of_le (not_lt.mp fun hrange => hfwd ⟨h3, hrange⟩)
    cases hc : commandOf (opField cmd) (imm8Field cmd) with
    | legal i => exact .inl ⟨i, hcommand.trans hc, by rw [(opcode_imm8_of_commandOf hc).1, hn]⟩
    | illegal c => exact absurd (le_of_commandOf_illegal hc) (Nat.not_le.mpr hlow)

end Sys2Proof
end

section
/-! SUPPORT. A write to CMD by what its word decodes to, and the step that serves it. -/

namespace Sys2Proof.Machine

/-- A legal word executes its command (spec/30_encoding.md R48). -/
theorem command_of_legal {cmd : Word} {i : Instr} (h : decode cmd = .legal i) (s : State) :
    command cmd s = exec i s := by
  simp only [command, h]

/-- A rejected word records an IllegalCommand (spec/43_control.md R70). -/
theorem command_of_illegal {cmd : Word} {c : IllegalCause} (h : decode cmd = .illegal c) (s : State) :
    command cmd s = raise .illegalCommand c.subcause (c.detail cmd) s := by
  simp only [command, h, execIllegal]

/-- A command word is the 32-bit word of its number. -/
theorem tableWord_toNat (cmd : Word) : tableWord 32 cmd.toNat = cmd := by
  rw [tableWord, Nat.mod_eq_of_lt cmd.isLt, BitVec.ofNat_toNat, BitVec.setWidth_eq]

end Sys2Proof.Machine
end

section
/-! SUPPORT. The obligations of the command word. -/

namespace Sys2Proof.Machine

/-- Settles O2, by the checks an encoding passes. -/
theorem decodeOfEncode : Obligations.DecodeOfEncode := decode_encode

/-- Settles O3: were the command ill formed, the word would be rejected. -/
theorem decodedWordIsItsEncoding : Obligations.DecodedWordIsItsEncoding := fun _ _ => decode_eq_legal_iff.mp

/-- Settles O4: an opcode's legal words are its legal operands, written into the pattern. -/
theorem legalWordsPerOpcode : Obligations.LegalWordsPerOpcode := by
  refine ⟨fun op => ⟨legalWords op, nodup_legalWords op, length_legalWords op, fun _ => mem_legalWords⟩,
    ⟨allLegalWords, nodup_allLegalWords, length_allLegalWords, fun _ => mem_allLegalWords⟩, fun cmd hcmd => ?_⟩
  cases h : decode cmd with
  | legal i => exact absurd ⟨i, h⟩ hcmd
  | illegal c => exact ⟨c, command_of_illegal h⟩

/-- Settles O5: a row is its opcode's test of the fields. -/
theorem opcodeRowsAgreeWithDecode : Obligations.OpcodeRowsAgreeWithDecode :=
  ⟨rfl, fun _ _ _ _ _ hr hq hm hn => (opcodeRow_unique hr hm).trans (opcodeRow_unique hq hn).symm,
    fun _ _ => exists_row_of_decode, fun _ _ _ => decode_of_matchesWord⟩

/-- Settles O6: each check by its own lemma, and past them the command of the opcode. -/
theorem commandWriteDecodesAndExecutes : Obligations.CommandWriteDecodesAndExecutes := by
  intro cmd s
  refine ⟨fun hop => command_of_illegal (decode_of_reservedOpcode hop) s,
    fun hop hrsv => command_of_illegal (decode_of_reservedBits hop hrsv) s, fun hrsv0 hrsv1 => ?_⟩
  refine ⟨fun hop himm => ?_, fun hop himm => ?_, fun hop himm => ?_, fun hop himm => ?_, fun hop himm => ?_,
    fun hop himm => ?_, fun hop => ?_, fun hop => ?_, fun hop => ?_, fun hop himm => ?_⟩
  · have hnone : takesNoOperand (opField cmd) = true := by
      change opField cmd = _ ∨ opField cmd = _ ∨ opField cmd = _ ∨ opField cmd = _ at hop
      obtain h | h | h | h := hop <;> rw [h] <;> rfl
    exact command_of_illegal (decode_of_operandNotAllowed hrsv0 hrsv1 hnone himm) s
  · exact command_of_illegal (decode_of_operandOutOfRange hrsv0 hrsv1 hop himm) s
  · exact command_of_legal (decode_of_plainOpcode hrsv0 hrsv1 hop rfl himm) s
  · exact command_of_legal (decode_of_plainOpcode hrsv0 hrsv1 hop rfl himm) s
  · exact command_of_legal (decode_of_plainOpcode hrsv0 hrsv1 hop rfl himm) s
  · have hfwd := decode_eq_commandOf hrsv0 hrsv1 hop (by decide) (fun hnone => absurd hnone (by decide)) fun _ => himm
    exact command_of_legal hfwd s
  · exact command_of_legal (decode_of_operandOpcode hrsv0 hrsv1 hop (by decide)) s
  · exact command_of_legal (decode_of_operandOpcode hrsv0 hrsv1 hop (by decide)) s
  · exact command_of_legal (decode_of_operandOpcode hrsv0 hrsv1 hop (by decide)) s
  · exact command_of_legal (decode_of_plainOpcode hrsv0 hrsv1 hop rfl himm) s

/-- Settles O1: R49's examples, evaluated. -/
theorem specWordsDecode : Obligations.SpecWordsDecode := by
  unfold Obligations.SpecWordsDecode
  decide

/-- Settles O7: the step serves the write, which executes its legal word. -/
theorem stepRunsTheDecodedCommand : Obligations.StepRunsTheDecodedCommand := by
  have serves (s : State) (rest : List Event) (cmd : Word) (i : Instr)
      (hs : s.pending = .access (.write 0#4 cmd) :: rest) (hi : decode cmd = .legal i) :
      step s = exec i { s with pending := rest, position := s.position + 1 } :=
    (step_of_pending hs).trans (command_of_legal hi _)
  refine ⟨serves, fun s cmd i hi => serves _ _ cmd i ?_ hi⟩
  rw [State.withFetchWord, tableWord_toNat]

end Sys2Proof.Machine
end

section
/-! SUPPORT. The assembler's commands and statements (spec/30_encoding.md R49, R51). -/

namespace Sys2Proof

/-- R49's formula, `OP(m) | (imm << 8)`: the fields of R41's pattern do not overlap. -/
theorem encode_eq_or (i : Instr) : encode i = i.opcode.setWidth 32 ||| (i.imm8.setWidth 32 <<< 8) := by
  apply BitVec.eq_of_toNat_eq
  have hop : i.opcode.toNat < 2 ^ 8 := i.opcode.isLt.trans (by decide)
  have himm : i.imm8.toNat < 2 ^ 8 := i.imm8.isLt
  have hshift : i.imm8.toNat <<< 8 % 2 ^ 32 = i.imm8.toNat <<< 8 := by
    rw [Nat.shiftLeft_eq]
    exact Nat.mod_eq_of_lt (by omega)
  rw [encode, BitVec.toNat_or, BitVec.toNat_shiftLeft, BitVec.toNat_setWidth_of_le (by decide),
    BitVec.toNat_setWidth_of_le (by decide), hshift, Nat.or_comm, ← Nat.shiftLeft_add_eq_or_of_lt hop, Nat.shiftLeft_eq]
  simp only [Machine.toNat_append_eq_add, BitVec.toNat_ofNat]
  omega

end Sys2Proof

namespace Sys2Proof.Machine

/-- A mnemonic that takes an operand accepts it exactly when it is a byte (R49). -/
theorem commandOfTokens_operand {m : List Char} {k : Keyword} {t : Token} {n : Nat} {command : Byte → Instr}
    (hm : keywordOf m = some k) (hk : ∀ imm, operandCommand k imm = some (command imm)) (ht : operandOf t = some n) :
    commandOfTokens [.name m, t] = if n ≤ 255 then some (command (BitVec.ofNat 8 n)) else none := by
  have hbound : n < 256 ↔ n ≤ 255 := Nat.lt_succ_iff
  simp only [commandOfTokens, byteOperandOf, hm, ht, Option.bind_some, hbound]
  split
  case isTrue => exact hk _
  case isFalse => rfl

/-- A mnemonic that takes none accepts no operand, of whatever form (R49). -/
theorem commandOfTokens_eq_none {m : List Char} {k : Keyword} (hm : keywordOf m = some k)
    (hk : ∀ imm, operandCommand k imm = none) (t : Token) : commandOfTokens [.name m, t] = none := by
  simp only [commandOfTokens, hm, Option.bind_some]
  cases byteOperandOf t with
  | none => rfl
  | some imm => exact hk imm

/-- A line is the statement of its keyword (R50). -/
theorem accessesOfTokens_name {m : List Char} {k : Keyword} (hm : keywordOf m = some k) (args : List Token) :
    accessesOfTokens (.name m :: args) = accessesOfStatement k args := by
  simp only [accessesOfTokens, hm, Option.bind_some]

/-- WRBYTES takes four byte operands, a comma between each two (R51). -/
theorem accessesOfStatement_wrbytes {t0 t1 t2 t3 : Token} {b0 b1 b2 b3 : Byte} (h0 : byteOperandOf t0 = some b0)
    (h1 : byteOperandOf t1 = some b1) (h2 : byteOperandOf t2 = some b2) (h3 : byteOperandOf t3 = some b3) :
    accessesOfStatement .wrbytes [t0, .comma, t1, .comma, t2, .comma, t3] = some [writeBytesAccess b0 b1 b2 b3] := by
  have hargs : commaSeparated [t0, .comma, t1, .comma, t2, .comma, t3] = some [t0, t1, t2, t3] := by
    simp [commaSeparated]
  simp only [accessesOfStatement, hargs, writeBytesStatement, h0, h1, h2, h3, Option.bind_some, Option.map_some]

end Sys2Proof.Machine
end

section
/-! SUPPORT. A run of a loaded program, access by access (spec/30_encoding.md R50, R51). -/

namespace Sys2Proof.Machine

section
variable (s : State) (as : List Access) (n : Nat)

/-- A read of a loaded program is recorded, and the rest of it runs on. -/
theorem run_withProgram_read (idx : BitVec 4) :
    Host.Core.run Sys2Proof.core (n + 1) (s.withProgram (.read idx :: as)) =
      Host.Core.run Sys2Proof.core n ((s.record (regRead idx s.block)).advance.withProgram as) :=
  core_run_succ n rfl

/-- A write of TXT[k] by a loaded program, and the rest of it runs on. -/
theorem run_withProgram_write_txt (k : Fin Config.blockChars) (v : Word) :
    Host.Core.run Sys2Proof.core (n + 1) (s.withProgram (.write (Reg.txt k).idx v :: as)) =
      Host.Core.run Sys2Proof.core n ((s.advance.setTxt k (lowByte v)).withProgram as) := by
  match k with
  | 0 => exact core_run_succ n rfl
  | 1 => exact core_run_succ n rfl
  | 2 => exact core_run_succ n rfl
  | 3 => exact core_run_succ n rfl
  | 4 => exact core_run_succ n rfl

/-- A write of WORD by a loaded program, and the rest of it runs on. -/
theorem run_withProgram_write_word (v : Word) :
    Host.Core.run Sys2Proof.core (n + 1) (s.withProgram (.write Reg.word.idx v :: as)) =
      Host.Core.run Sys2Proof.core n ((s.advance.setWord v).withProgram as) :=
  core_run_succ n rfl

/-- A program that has ended leaves the state as it is. -/
theorem run_withProgram_nil : Host.Core.run Sys2Proof.core 0 (s.withProgram []) = .next s := rfl

/-- A program of one command is the write of its encoding at the next position. -/
theorem run_withProgram_command (i : Instr) :
    Host.Core.run Sys2Proof.core 1 (s.withProgram [commandAccess i]) = command (encode i) s.advance := by
  have hstep : step (s.withProgram [commandAccess i]) = command (encode i) s.advance := rfl
  obtain ⟨t, ht, -⟩ := command_goes_on (encode i) s.advance
  rw [ht]
  exact (core_run_succ 0 (hstep.trans ht)).trans (core_run_zero t)

end

/-- TXTk keeps a character whole (spec/10_state.md R13). -/
theorem lowByte_zext32 (c : Byte) : lowByte (zext32 c) = c := by
  apply BitVec.eq_of_toNat_eq
  simp only [lowByte, zext32, BitVec.extractLsb'_toNat, BitVec.toNat_setWidth, Nat.shiftRight_zero]
  omega

/-- R7's be32 as a number: the first byte is the most significant. -/
theorem be32_eq_ofNat (b0 b1 b2 b3 : Byte) : be32 b0 b1 b2 b3 =
    BitVec.ofNat 32 (b0.toNat * 2 ^ 24 + b1.toNat * 2 ^ 16 + b2.toNat * 2 ^ 8 + b3.toNat) := by
  apply BitVec.eq_of_toNat_eq
  rw [be32]
  simp only [toNat_append_eq_add, BitVec.toNat_ofNat]
  omega

end Sys2Proof.Machine
end

section
/-! SUPPORT. The obligations of the assembler's text. -/

namespace Sys2Proof.Machine

/-- Settles O55: the formula, the operand rules for every token, and the examples evaluated. -/
theorem assemblerEncodesCommands : Obligations.AssemblerEncodesCommands := by
  refine ⟨encode_eq_or, by decide, by decide, by decide, by decide, by decide, by decide, by decide, by decide,
    fun t n ht => ⟨?_, ?_, ?_, ?_⟩, fun t => ⟨?_, ?_, ?_, ?_⟩, by decide, by decide, by decide⟩
  · exact commandOfTokens_operand keywordOf_fwd (fun _ => rfl) ht
  · exact commandOfTokens_operand keywordOf_inv (fun _ => rfl) ht
  · exact commandOfTokens_operand keywordOf_cntx (fun _ => rfl) ht
  · exact commandOfTokens_operand keywordOf_cntg (fun _ => rfl) ht
  · exact commandOfTokens_eq_none keywordOf_nop (fun _ => rfl) t
  · exact commandOfTokens_eq_none keywordOf_enc (fun _ => rfl) t
  · exact commandOfTokens_eq_none keywordOf_dec (fun _ => rfl) t
  · exact commandOfTokens_eq_none keywordOf_clrs (fun _ => rfl) t

/-- Settles O56: the expansions by their keywords, and their runs access by access. -/
theorem pseudoInstructionEffects : Obligations.PseudoInstructionEffects := by
  refine ⟨fun _ _ _ _ _ => accessesOfTokens_name keywordOf_wrtxt _, accessesOfTokens_name keywordOf_rdtxt _,
    fun t0 t1 t2 t3 b0 b1 b2 b3 h0 h1 h2 h3 => ?_, fun tokens i hi => ?_, fun c0 c1 c2 c3 c4 s => ?_, fun s => ?_,
    fun b0 b1 b2 b3 s => ?_, fun i s => run_withProgram_command s i⟩
  · exact (accessesOfTokens_name keywordOf_wrbytes _).trans (accessesOfStatement_wrbytes h0 h1 h2 h3)
  · rw [accessesOfTokens_name keywordOf_cmd, accessesOfStatement, hi]
    rfl
  · simp only [writeTextAccesses, run_withProgram_write_txt, lowByte_zext32, run_withProgram_nil]
    rfl
  · simp only [readTextAccesses, charIndices, List.map_cons, List.map_nil, run_withProgram_read, run_withProgram_nil,
      State.record, State.advance, List.append_assoc, List.cons_append, List.nil_append]
    rfl
  · rw [writeBytesAccess, run_withProgram_write_word, run_withProgram_nil, be32_eq_ofNat]
    rfl

end Sys2Proof.Machine
end

section
/-! SUPPORT. The alphabet's two tables: FWD_ROM holds each of its codes once, INV_ROM is its inverse, and which byte
codes are invalid (spec/40_alphabet.md R52 to R56). -/

namespace Sys2Proof.Machine

/-- FWD_ROM's codes are the codes 0x21..0x7D but eight, each once, in another order (R53). -/
theorem fwdRomEntries_perm : (fwdRomEntries.map BitVec.toNat).Perm
    ((List.range' 0x21 93).filter (· ∉ [0x22, 0x27, 0x2C, 0x3B, 0x5C, 0x5F, 0x60, 0x7C])) := by
  decide

/-- FWD_ROM's codes are pairwise distinct (R53). -/
theorem nodup_fwdRomEntries : fwdRomEntries.Nodup :=
  .of_map BitVec.toNat (fwdRomEntries_perm.nodup_iff.mpr (List.Nodup.filter _ List.nodup_range'))

/-- Each alphabet character has exactly one digit (R53). -/
theorem fwdRom_injective : Function.Injective fwdRom :=
  nodup_fwdRomEntries.injective_get.comp (Fin.cast_injective _)

/-- `fwdRom` reads the entry list in index order (R52). -/
theorem fwdRomEntries_getElem? (i : Fin Config.alphabetSize) : fwdRomEntries[i.val]? = some (fwdRom i) :=
  List.getElem?_eq_getElem (fwdRomEntries_length.symm ▸ i.isLt)

/-- The entries of FWD_ROM are its values at the digits. -/
theorem mem_fwdRomEntries_iff {c : Byte} : c ∈ fwdRomEntries ↔ ∃ i, c = fwdRom i := by
  constructor
  · intro h
    obtain ⟨i, rfl⟩ := List.get_of_mem h
    exact ⟨i.cast fwdRomEntries_length, rfl⟩
  · rintro ⟨i, rfl⟩
    exact List.get_mem _ _

/-- INV_ROM at the character of digit i is (1, i) (R54, R56): i is the first index of a list without repetition. -/
theorem invRom_fwdRom (i : Fin Config.alphabetSize) : invRom (fwdRom i) = ⟨true, BitVec.ofNat 7 i.val⟩ := by
  have hi : i.val < fwdRomEntries.length := fwdRomEntries_length.symm ▸ i.isLt
  have hfirst : fwdRomEntries.findIdx? (fun a => a == fwdRom i) = some i.val := by
    refine List.findIdx?_eq_some_iff_getElem.mpr ⟨hi, beq_self_eq_true _, fun j hj heq => ?_⟩
    exact hj.ne ((nodup_fwdRomEntries.getElem_inj_iff).mp (beq_iff_eq.mp heq))
  simp only [invRom, hfirst]

/-- INV_ROM at any other byte is (0, 0) (R54). -/
theorem invRom_of_ne {c : Byte} (h : ∀ i, c ≠ fwdRom i) : invRom c = ⟨false, 0#7⟩ := by
  have hnone : fwdRomEntries.findIdx? (fun a => a == c) = none := by
    refine List.findIdx?_eq_none_iff.mpr fun a ha => ?_
    obtain ⟨i, rfl⟩ := mem_fwdRomEntries_iff.mp ha
    exact beq_eq_false_iff_ne.mpr (h i).symm
  simp only [invRom, hnone]

/-- The alphabet characters are the entries of FWD_ROM (R55). -/
theorem inAlphabet_iff_exists_digit {c : Byte} : inAlphabet c = true ↔ ∃ i, c = fwdRom i :=
  (inAlphabet_iff_mem c).trans mem_fwdRomEntries_iff

/-- A byte that is no entry of FWD_ROM is outside the alphabet (R55). -/
theorem inAlphabet_eq_false_iff {c : Byte} : inAlphabet c = false ↔ ∀ i, c ≠ fwdRom i := by
  rw [← Bool.not_eq_true, inAlphabet_iff_exists_digit, not_exists]

/-- A digit fits INV_ROM's seven-bit value. -/
theorem toNat_digitValue (i : Fin Config.alphabetSize) : (BitVec.ofNat 7 i.val).toNat = i.val :=
  BitVec.toNat_ofNat .. |>.trans (Nat.mod_eq_of_lt (i.isLt.trans (by decide)))

/-- A byte is an alphabet character exactly when its code is in 0x21..0x7D and not one of the eight (R53). -/
theorem inAlphabet_iff_code {c : Byte} : inAlphabet c = true ↔
    0x21 ≤ c.toNat ∧ c.toNat ≤ 0x7D ∧ c.toNat ∉ [0x22, 0x27, 0x2C, 0x3B, 0x5C, 0x5F, 0x60, 0x7C] := by
  have hcode : c.toNat ∈ fwdRomEntries.map BitVec.toNat ↔ c ∈ fwdRomEntries :=
    List.mem_map_of_injective BitVec.toNat_injective
  rw [inAlphabet_iff_mem, ← hcode, fwdRomEntries_perm.mem_iff, List.mem_filter, List.mem_range'_1, decide_eq_true_iff,
    and_assoc, Nat.lt_succ_iff]

/-- R55's list of the invalid codes. -/
theorem inAlphabet_eq_false_iff_code {c : Byte} : inAlphabet c = false ↔
    c.toNat ≤ 0x20 ∨ c.toNat = 0x22 ∨ c.toNat = 0x27 ∨ c.toNat = 0x2C ∨ c.toNat = 0x3B ∨ c.toNat = 0x5C ∨
      c.toNat = 0x5F ∨ c.toNat = 0x60 ∨ c.toNat = 0x7C ∨ 0x7E ≤ c.toNat := by
  rw [← Bool.not_eq_true, inAlphabet_iff_code]
  simp only [List.mem_cons, List.not_mem_nil, or_false]
  omega

/-- The valid byte codes are the codes of FWD_ROM's entries, in another order. -/
theorem filter_inAlphabet_perm :
    ((List.range 256).filter fun n => inAlphabet (BitVec.ofNat 8 n)).Perm (fwdRomEntries.map BitVec.toNat) := by
  refine (List.perm_ext_iff_of_nodup (List.nodup_range.filter _)
    (nodup_fwdRomEntries.map BitVec.toNat_injective)).mpr fun n => ?_
  simp only [List.mem_filter, List.mem_range, List.mem_map, inAlphabet_iff_mem]
  constructor
  · rintro ⟨hn, hmem⟩
    exact ⟨_, hmem, (BitVec.toNat_ofNat ..).trans (Nat.mod_eq_of_lt hn)⟩
  · rintro ⟨c, hmem, rfl⟩
    exact ⟨c.isLt, by simpa using hmem⟩

/-- The codes below n that fail a test, counted from those that pass it. For any test, so that the kernel does not
evaluate a count. -/
theorem length_filter_not_range (n : Nat) (p : Nat → Bool) :
    ((List.range n).filter (!p ·)).length = n - ((List.range n).filter p).length := by
  have hsplit := (List.range n).length_eq_length_filter_add p
  rw [List.length_range] at hsplit
  omega

/-- 85 of the 256 byte codes are valid (R55). -/
theorem length_filter_inAlphabet :
    ((List.range 256).filter fun n => inAlphabet (BitVec.ofNat 8 n)).length = 85 := by
  rw [filter_inAlphabet_perm.length_eq, List.length_map, fwdRomEntries_length]

end Sys2Proof.Machine
end

section
/-! SUPPORT. FWD and INV executed on each kind of operand, and the words of an opcode by the pattern 0x0000ii0o
(spec/40_alphabet.md R57, R58; spec/30_encoding.md R49). -/

namespace Sys2Proof

/-- An encoding's low byte holds RSV0 = 0 and the opcode (spec/30_encoding.md R41). -/
theorem encode_eq_lowByte (i : Instr) : encode i = 0#16 ++ i.imm8 ++ (0#4 ++ i.opcode) := by
  rw [encode, BitVec.append_assoc]
  rfl

end Sys2Proof

namespace Sys2Proof.Machine

/-- A word that is no encoding of a command of its opcode is rejected (spec/30_encoding.md R47). -/
theorem commandRejected_of_ne_encode {cmd : Word} (h : ∀ i : Instr, i.opcode = opField cmd → cmd ≠ encode i)
    (s : State) : commandRejected cmd s := by
  cases hd : decode cmd with
  | legal i =>
    have hword := eq_encode_of_decode hd
    obtain ⟨hop, -⟩ := encodedFields i
    exact absurd hword (h i (hword ▸ hop.symm))
  | illegal c => exact ⟨_, _, command_of_illegal hd s⟩

section
variable {imm : Byte}

/-- FWD of a digit writes its character to RESULT (R57). -/
theorem exec_fwd_of_lt (h : imm.toNat < 85) (s : State) :
    exec (.fwd imm) s = ok (s.setResult (fwdRom ⟨imm.toNat, h⟩)) :=
  dif_pos h

/-- FWD of 85 or more is IllegalCommand, sub-cause 3 (R57). -/
theorem exec_fwd_of_le (h : 85 ≤ imm.toNat) (s : State) : exec (.fwd imm) s = raise .illegalCommand 3#3 imm s :=
  dif_neg (Nat.not_lt.mpr h)

/-- INV of an alphabet character writes its digit to RESULT (R58). -/
theorem exec_inv_fwdRom (i : Fin Config.alphabetSize) (s : State) :
    exec (.inv (fwdRom i)) s = ok (s.setResult (BitVec.ofNat 8 i.val)) := by
  have hvalue : (BitVec.ofNat 7 i.val).setWidth 8 = BitVec.ofNat 8 i.val :=
    BitVec.eq_of_toNat_eq (by simp [Nat.mod_eq_of_lt (i.isLt.trans (show 85 < 128 by decide))])
  simp only [exec, execInv, invRom_fwdRom, hvalue, if_true]

/-- INV of any other byte is InvalidCharacter (R58). -/
theorem exec_inv_of_ne (h : ∀ i, imm ≠ fwdRom i) (s : State) :
    exec (.inv imm) s = raise .invalidCharacter 0#3 imm s := by
  simp only [exec, execInv, invRom_of_ne h, Bool.false_eq_true, if_false]

end

/-- FWD's words are 0x0000ii03 (R57). -/
theorem encode_fwd (imm : Byte) : encode (.fwd imm) = 0#16 ++ imm ++ 0x03#8 := by
  simp [encode_eq_lowByte, Instr.imm8, Instr.opcode]

/-- INV's words are 0x0000cc04 (R58). -/
theorem encode_inv (imm : Byte) : encode (.inv imm) = 0#16 ++ imm ++ 0x04#8 := by
  simp [encode_eq_lowByte, Instr.imm8, Instr.opcode]

/-- A FWD word with an operand of 85 or more is rejected as sub-cause 3 with that operand (R57). -/
theorem command_encode_fwd_of_le {imm : Byte} (h : 85 ≤ imm.toNat) (s : State) :
    command (encode (.fwd imm)) s = raise .illegalCommand 3#3 imm s := by
  have hill : ¬ (Instr.fwd imm).wellFormed = true := by simpa [Instr.wellFormed] using h
  have hdecode := (decode_encode (.fwd imm)).trans (if_neg hill)
  obtain ⟨-, -, himm, -⟩ := encodedFields (.fwd imm)
  rw [command_of_illegal hdecode, IllegalCause.detail, himm]
  rfl

end Sys2Proof.Machine
end

section
/-! SUPPORT. The obligations of the alphabet's tables and lookups. -/

namespace Sys2Proof.Machine

/-- Settles O22: a byte is an alphabet character, whose digit INV writes, or it is not, which INV reports. -/
theorem invWritesTheDigit : Obligations.InvWritesTheDigit := by
  refine ⟨?_, fun imm s h => exec_inv_of_ne h s, fun imm => ?_, rfl, rfl, rfl, fun c hc => ?_⟩
  · rintro i imm s rfl
    exact exec_inv_fwdRom i s
  · exact decode_eq_legal_iff.mpr ⟨encode_inv imm, rfl⟩
  · have hcode : ∀ c ∈ [0x20#8, 0x00#8, 0x7E#8, 0x80#8], c.toNat ≤ 0x20 ∨ 0x7E ≤ c.toNat := by decide
    refine inAlphabet_eq_false_iff.mp (inAlphabet_eq_false_iff_code.mpr ?_)
    obtain h | h := hcode c hc <;> simp [h]

/-- Settles O15: distinctness from the table's list, the order of each range entry by entry, the bounds and the
printable characters left out from the codes. -/
theorem alphabetOrder : Obligations.AlphabetOrder := by
  refine ⟨fun _ _ h => fwdRom_injective h, by decide, by decide, by decide, rfl, fun i => ?_, fun c hlo hhi => ?_⟩
  · obtain ⟨hlo, hhi, -⟩ := inAlphabet_iff_code.mp (inAlphabet_iff_exists_digit.mpr ⟨i, rfl⟩)
    exact ⟨hlo, hhi⟩
  · have houtside : (∀ i, fwdRom i ≠ c) ↔ inAlphabet c = false := by simp only [inAlphabet_eq_false_iff, ne_comm]
    rw [houtside, inAlphabet_eq_false_iff_code]
    simp only [List.mem_cons, List.not_mem_nil, or_false, ← BitVec.toNat_inj, BitVec.toNat_ofNat]
    omega

/-- Settles O16: INV_ROM at a character and at any other byte. -/
theorem inverseTableCases : Obligations.InverseTableCases := by
  refine fun c => ⟨?_, invRom_of_ne⟩
  rintro i rfl
  exact ⟨invRom_fwdRom i, fun j h => fwdRom_injective h.symm⟩

/-- Settles O17: a valid byte is the character of a digit, and INV_ROM holds that digit. -/
theorem tablesAgree : Obligations.TablesAgree := by
  have hvalue (i : Fin 85) : (invRom (fwdRom i)).value.toNat = i.val := by rw [invRom_fwdRom, toNat_digitValue]
  refine ⟨fun i => ⟨by rw [invRom_fwdRom], hvalue i⟩, fun c h => ⟨invRom_value_lt c, ?_⟩⟩
  obtain ⟨i, rfl⟩ := inAlphabet_iff_exists_digit.mp h
  exact congrArg fwdRom (Fin.ext (hvalue i))

/-- Settles O18: R55's list by its codes, the valid codes counted by FWD_ROM and the invalid ones as the rest, and 0 the
digit of '0' alone. -/
theorem strictInvalidBytes : Obligations.StrictInvalidBytes := by
  refine ⟨fun _ => inAlphabet_eq_false_iff_code, length_filter_inAlphabet, ?_, fun c h => ?_⟩
  · rw [length_filter_not_range, length_filter_inAlphabet]
  · obtain ⟨i, rfl⟩ := inAlphabet_iff_exists_digit.mp h
    have hzero : (0x30#8 : Byte) = fwdRom 0 := rfl
    rw [hzero, fwdRom_injective.eq_iff, invRom_fwdRom, ← BitVec.toNat_inj, toNat_digitValue, Fin.ext_iff]
    rfl

/-- Settles O21: FWD by its operand's range, its words as encodings, and any other word of its opcode rejected. -/
theorem fwdWritesTheTableEntry : Obligations.FwdWritesTheTableEntry := by
  refine ⟨fun imm s h => ⟨_, fwdRomEntries_getElem? ⟨imm.toNat, h⟩, exec_fwd_of_lt h s⟩,
    fun imm s h => ⟨exec_fwd_of_le h s, encode_fwd imm ▸ command_encode_fwd_of_le h s⟩, fun imm h => ?_,
    fun cmd s hop hcmd => commandRejected_of_ne_encode (fun i hi => ?_) s, rfl, rfl, rfl⟩
  · exact decode_eq_legal_iff.mpr ⟨encode_fwd imm, decide_eq_true h⟩
  · have hfwd : i.opcode = 3#4 := hi.trans hop
    rw [encode_eq_lowByte, hfwd]
    exact hcmd i.imm8

end Sys2Proof.Machine
end

section
/-! SUPPORT. The base-85 numeral of a number below 85^5: it is the one text of alphabet characters with that text value
(spec/41_block_transform.md R59). -/

namespace Sys2Proof.Machine

/-- Digit k of a number in base 85. `digit` is this of a block value; the text values go beyond the block values. -/
def numeralDigit (n : Nat) (k : Fin Config.blockChars) : Fin Config.alphabetSize :=
  ⟨n / weight k % Config.alphabetSize, Nat.mod_lt _ (by decide)⟩

/-- The five characters of a number in base 85. -/
def numeralText (n : Nat) : Fin Config.blockChars → Byte := fun k => fwdRom (numeralDigit n k)

/-- The weights of the five characters (R32, R59). -/
@[simp] theorem weight_zero : weight 0 = 52200625 := rfl
@[simp] theorem weight_one : weight 1 = 614125 := rfl
@[simp] theorem weight_two : weight 2 = 7225 := rfl
@[simp] theorem weight_three : weight 3 = 85 := rfl
@[simp] theorem weight_four : weight 4 = 1 := rfl

/-- R59's digits of a block value are those of its number. -/
theorem digit_eq_numeralDigit (w : Word) (k : Fin Config.blockChars) : digit w k = numeralDigit w.toNat k := rfl

/-- A numeral's digit as a number (R59). -/
theorem val_numeralDigit (n : Nat) (k : Fin Config.blockChars) : (numeralDigit n k).val = n / weight k % 85 := rfl

/-- A digit's character has the digit as its value. -/
@[simp] theorem charValue_fwdRom (i : Fin Config.alphabetSize) : charValue (fwdRom i) = i.val := by
  rw [charValue, invRom_fwdRom, toNat_digitValue]

/-- A character's value is a digit. -/
theorem charValue_lt (c : Byte) : charValue c < 85 := invRom_value_lt c

/-- The five values of a text are digits. -/
theorem charValues_lt (t : Fin Config.blockChars → Byte) : charValue (t 0) < 85 ∧ charValue (t 1) < 85 ∧
    charValue (t 2) < 85 ∧ charValue (t 3) < 85 ∧ charValue (t 4) < 85 :=
  ⟨charValue_lt _, charValue_lt _, charValue_lt _, charValue_lt _, charValue_lt _⟩

/-- An alphabet character is the one of a digit exactly when its value is the digit (R53). -/
theorem eq_fwdRom_iff_charValue {c : Byte} (hc : inAlphabet c = true) (i : Fin Config.alphabetSize) :
    c = fwdRom i ↔ charValue c = i.val := by
  obtain ⟨j, rfl⟩ := inAlphabet_iff_exists_digit.mp hc
  rw [fwdRom_injective.eq_iff, charValue_fwdRom, Fin.ext_iff]

/-- R59's text value with the weights written out. -/
theorem textValue_eq_sum (t : Fin Config.blockChars → Byte) :
    textValue t = charValue (t 0) * 52200625 + charValue (t 1) * 614125 + charValue (t 2) * 7225
      + charValue (t 3) * 85 + charValue (t 4) := by
  simp [textValue]

/-- The largest text value is 85^5 - 1 (R59). -/
theorem textValue_lt (t : Fin Config.blockChars → Byte) : textValue t < 85 ^ 5 := by
  obtain ⟨h0, h1, h2, h3, h4⟩ := charValues_lt t
  rw [textValue_eq_sum]
  omega

/-- The base-85 digits of a text value are the values of the characters. -/
theorem numeralDigit_textValue (t : Fin Config.blockChars → Byte) (k : Fin Config.blockChars) :
    (numeralDigit (textValue t) k).val = charValue (t k) := by
  obtain ⟨h0, h1, h2, h3, h4⟩ := charValues_lt t
  rw [val_numeralDigit, textValue_eq_sum]
  match k with
  | 0 => rw [weight_zero]; omega
  | 1 => rw [weight_one]; omega
  | 2 => rw [weight_two]; omega
  | 3 => rw [weight_three]; omega
  | 4 => rw [weight_four]; omega

/-- A number's five characters are in the alphabet. -/
theorem validText_numeralText (n : Nat) : validText (numeralText n) :=
  fun _ => inAlphabet_iff_exists_digit.mpr ⟨_, rfl⟩

/-- Five base-85 digits hold every number below 85^5 (R59). -/
theorem textValue_numeralText {n : Nat} (h : n < 85 ^ 5) : textValue (numeralText n) = n := by
  simp only [textValue_eq_sum, numeralText, charValue_fwdRom, val_numeralDigit, weight_zero, weight_one, weight_two,
    weight_three, weight_four]
  omega

/-- A text of alphabet characters is the numeral of its value. -/
theorem numeralText_textValue {t : Fin Config.blockChars → Byte} (ht : validText t) :
    numeralText (textValue t) = t :=
  funext fun k => ((eq_fwdRom_iff_charValue (ht k) _).mpr (numeralDigit_textValue t k).symm).symm

/-- The texts of alphabet characters and the numbers below 85^5 correspond one to one (R59). -/
theorem eq_numeralText_iff {n : Nat} (h : n < 85 ^ 5) {t : Fin Config.blockChars → Byte} :
    t = numeralText n ↔ validText t ∧ textValue t = n := by
  constructor
  · rintro rfl
    exact ⟨validText_numeralText n, textValue_numeralText h⟩
  · rintro ⟨ht, rfl⟩
    exact (numeralText_textValue ht).symm

/-- A number's text written out, character by character. -/
theorem numeralText_eq_textOf {n : Nat} {c0 c1 c2 c3 c4 : Byte} (h0 : fwdRom (numeralDigit n 0) = c0)
    (h1 : fwdRom (numeralDigit n 1) = c1) (h2 : fwdRom (numeralDigit n 2) = c2)
    (h3 : fwdRom (numeralDigit n 3) = c3) (h4 : fwdRom (numeralDigit n 4) = c4) :
    numeralText n = textOf c0 c1 c2 c3 c4 := by
  funext k
  match k with
  | 0 => exact h0
  | 1 => exact h1
  | 2 => exact h2
  | 3 => exact h3
  | 4 => exact h4

/-- Every block value has a text: 2^32 < 85^5 (R59). -/
theorem toNat_lt_radix_pow (w : Word) : w.toNat < 85 ^ 5 := w.isLt.trans (by decide)

end Sys2Proof.Machine
end

section
/-! SUPPORT. ENC and DEC executed: what each writes, when DEC succeeds, and the value it gives
(spec/41_block_transform.md R60, R61, R63). -/

namespace Sys2Proof.Machine

/-- The words of an opcode that takes no operand but its one legal word are rejected (spec/30_encoding.md R45, R46). -/
theorem commandRejected_of_plainOpcode {cmd : Word} {op : BitVec 4} (hop : opField cmd = op)
    (hplain : takesNoOperand op = true) (hcmd : cmd ≠ 0#16 ++ 0#8 ++ (0#4 ++ op)) (s : State) :
    commandRejected cmd s := by
  refine commandRejected_of_ne_encode (fun i hi => ?_) s
  have hiop : i.opcode = op := hi.trans hop
  have himm : i.imm8 = 0#8 := Instr.imm8_eq_zero (hiop ▸ hplain)
  rwa [encode_eq_lowByte, himm, hiop]

/-- A write of STATUS leaves TXT. -/
theorem setStatus_txt (s : State) (st : Status) : (s.setStatus st).block.txt = s.block.txt := rfl

/-- ENC writes the numeral of WORD to TXT (R60). -/
theorem exec_enc (s : State) : exec .enc s = ok (s.setText (numeralText s.block.word.toNat)) := rfl

section
variable {s t : State} (h : exec .enc s = .next t)
include h

/-- TXT after ENC (R60). -/
theorem txt_of_enc : t.block.txt = numeralText s.block.word.toNat := by
  obtain rfl := (ok_eq_next_iff _ _).mp ((exec_enc s).symm.trans h)
  exact (setStatus_txt _ _).trans (setText_txt s _)

/-- ENC leaves WORD as it was (R60). -/
theorem word_of_enc : t.block.word = s.block.word := by
  obtain rfl := (ok_eq_next_iff _ _).mp ((exec_enc s).symm.trans h)
  rfl

/-- ENC writes alphabet characters (R60). -/
theorem validText_of_enc : validText t.block.txt :=
  txt_of_enc h ▸ validText_numeralText _

/-- After ENC the text value is the block value (R59, R60). -/
theorem textValue_of_enc : textValue t.block.txt = s.block.word.toNat := by
  rw [txt_of_enc h, textValue_numeralText (toNat_lt_radix_pow _)]

end

/-- An accumulator that wraps at each digit ends with the text value modulo 2^32 (R61, D8). -/
theorem decodeAccumulate_eq (t : Fin Config.blockChars → Byte) :
    decodeAccumulate t = BitVec.ofNat 32 (textValue t) := by
  have horner : charIndices.foldl (fun acc k => acc * 85 + charValue (t k)) 0 = textValue t := by
    simp only [charIndices, List.foldl_cons, List.foldl_nil, textValue_eq_sum]
    omega
  rw [← horner]
  refine List.foldl_hom (BitVec.ofNat 32) fun acc k => ?_
  rw [BitVec.ofNat_add, BitVec.ofNat_mul, charValue, BitVec.ofNat_toNat]

/-- DEC finds no invalid character exactly in a text of alphabet characters (R61). -/
theorem firstInvalid_eq_none_iff_validText {t : Fin Config.blockChars → Byte} :
    firstInvalid t = none ↔ validText t :=
  firstInvalid_eq_none_iff t

/-- `ok()` after a write of WORD, field by field. For any value, so that the kernel does not evaluate one. -/
theorem ok_setWord (s : State) (v : Word) : ok (s.setWord v) = .next { s with block := { s.block with
    word := v, status := ⟨0#4, 0#3, 0x00#8, s.block.status.anyErr⟩ } } := rfl

section
variable {s : State}

/-- DEC of a text of alphabet characters writes its value modulo 2^32 to WORD (R61). -/
theorem exec_dec_of_validText (h : validText s.block.txt) :
    exec .dec s = ok (s.setWord (BitVec.ofNat 32 (textValue s.block.txt))) := by
  simp only [exec, execDec, firstInvalid_eq_none_iff_validText.mpr h, decodeAccumulate_eq]

/-- DEC of any other text reports its least invalid character (R61). -/
theorem exec_dec_of_some {j : Fin Config.blockChars} (h : firstInvalid s.block.txt = some j) :
    exec .dec s = raise .invalidCharacter (BitVec.ofNat 3 j.val) (s.block.txt j) s := by
  simp only [exec, execDec, h]

/-- WORD and ERR after DEC of a text of alphabet characters (R61). -/
theorem word_err_of_dec {t : State} (h : exec .dec s = .next t) (hvalid : validText s.block.txt) :
    t.block.word = BitVec.ofNat 32 (textValue s.block.txt) ∧ t.block.status.err = 0#4 := by
  obtain rfl := (ok_eq_next_iff _ _).mp ((exec_dec_of_validText hvalid).symm.trans h)
  exact ⟨rfl, rfl⟩

/-- STATUS after DEC of a given text with a least invalid character. -/
theorem status_of_dec {t : State} (h : exec .dec s = .next t) {u : Fin Config.blockChars → Byte}
    {j : Fin Config.blockChars} (hu : firstInvalid u = some j) (htxt : s.block.txt = u) :
    t.block.status = ⟨2#4, BitVec.ofNat 3 j.val, u j, true⟩ := by
  subst htxt
  obtain rfl := (raise_eq_next_iff _ _ _ _ _).mp ((exec_dec_of_some hu).symm.trans h)
  rfl

/-- WORD and ERR after DEC of a number's five characters. -/
theorem word_err_of_dec_textOf {t : State} (h : exec .dec s = .next t) {n : Nat} (hn : n < 85 ^ 5)
    {c0 c1 c2 c3 c4 : Byte} (hchars : numeralText n = textOf c0 c1 c2 c3 c4)
    (htxt : s.block.txt = textOf c0 c1 c2 c3 c4) :
    t.block.word = BitVec.ofNat 32 n ∧ t.block.status.err = 0#4 := by
  obtain ⟨hvalid, hvalue⟩ := (eq_numeralText_iff hn).mp (htxt.trans hchars.symm)
  obtain ⟨hword, herr⟩ := word_err_of_dec h hvalid
  exact ⟨hvalue ▸ hword, herr⟩

/-- R72's dec5 answers a value on the texts of alphabet characters. -/
theorem dec5_eq_value_iff {t : Fin Config.blockChars → Byte} {w : Word} :
    dec5 t = .value w ↔ validText t ∧ BitVec.ofNat 32 (textValue t) = w := by
  rw [← firstInvalid_eq_none_iff_validText]
  cases h : firstInvalid t with
  | none => simp [dec5, h]
  | some j => simp [dec5, h]

/-- DEC succeeds on the texts of alphabet characters, and then gives the text value modulo 2^32 (R61). -/
theorem decodesTo_iff {w : Word} :
    decodesTo s w ↔ validText s.block.txt ∧ BitVec.ofNat 32 (textValue s.block.txt) = w := by
  constructor
  · rintro ⟨t, ht, hword, herr⟩
    cases h : firstInvalid s.block.txt with
    | none =>
      have hvalid := firstInvalid_eq_none_iff_validText.mp h
      obtain ⟨hvalue, -⟩ := word_err_of_dec ht hvalid
      exact ⟨hvalid, hvalue.symm.trans hword⟩
    | some j =>
      rw [status_of_dec ht h rfl] at herr
      exact absurd herr (by simp)
  · rintro ⟨h, hword⟩
    exact ⟨_, exec_dec_of_validText h, hword, rfl⟩

/-- DEC gives a value for the texts of that value and of the value 2^32 above it, if that is below 85^5 (R63). -/
theorem decodesTo_iff_textValue {w : Word} : decodesTo s w ↔ validText s.block.txt ∧
    (textValue s.block.txt = w.toNat ∨ textValue s.block.txt = w.toNat + 2 ^ 32) := by
  have hlt := textValue_lt s.block.txt
  have hw := w.isLt
  rw [decodesTo_iff, ← BitVec.toNat_inj, BitVec.toNat_ofNat]
  refine and_congr_right fun _ => ?_
  omega

end

/-- A text value is 2^32 or more by its first digit, and where that is 82 by the other four (R63). -/
theorem overflow_iff_charValue (t : Fin Config.blockChars → Byte) : 2 ^ 32 ≤ textValue t ↔
    charValue (t 0) = 83 ∨ charValue (t 0) = 84 ∨ (charValue (t 0) = 82 ∧
      14516046 ≤ charValue (t 1) * 85 ^ 3 + charValue (t 2) * 85 ^ 2 + charValue (t 3) * 85 + charValue (t 4)) := by
  obtain ⟨h0, h1, h2, h3, h4⟩ := charValues_lt t
  rw [textValue_eq_sum]
  omega

end Sys2Proof.Machine
end

section
/-! SUPPORT. The obligations of the block transform. -/

namespace Sys2Proof.Machine

/-- Settles O27: a block value is the text value of its numeral, and the digits are the characters' values. -/
theorem digitsSumToTheBlockValue : Obligations.DigitsSumToTheBlockValue := by
  refine ⟨fun w => ⟨fun k => rfl, ?_⟩, fun t _ => ⟨textValue_eq_sum t, Nat.le_of_lt_succ (textValue_lt t)⟩,
    by decide, by decide⟩
  have hsum := textValue_eq_sum (numeralText w.toNat)
  rw [textValue_numeralText (toNat_lt_radix_pow w)] at hsum
  simpa only [numeralText, charValue_fwdRom, digit_eq_numeralDigit] using hsum

/-- Settles O23: ENC writes WORD's numeral, whose first digit is at most 82, and leaves WORD for the next ENC; the
corner cases' numerals are evaluated. -/
theorem encWritesTheDigits : Obligations.EncWritesTheDigits := by
  refine ⟨by decide, fun s => ⟨digit s.block.word, fun k => rfl, rfl⟩,
    fun cmd s hop hcmd => commandRejected_of_plainOpcode hop (by decide) hcmd s, fun s t h => ?_, fun s t h => ?_⟩
  · have hvalid := validText_of_enc h
    have hregion := mt (overflow_iff_charValue t.block.txt).mpr
      (Nat.not_le.mpr (textValue_of_enc h ▸ s.block.word.isLt))
    refine ⟨fun h0 => hregion (.inl ?_), fun h0 => hregion (.inr (.inl ?_)), hvalid, _, exec_enc t, ?_⟩
    · exact (eq_fwdRom_iff_charValue (hvalid 0) 83).mp h0
    · exact (eq_fwdRom_iff_charValue (hvalid 0) 84).mp h0
    · rw [txt_of_enc (exec_enc t), txt_of_enc h, word_of_enc h]
  · rw [txt_of_enc h]
    refine ⟨fun hw => ?_, fun hw => ?_, fun hw => ?_, fun hw => ?_, fun hw => ?_⟩
    all_goals
      rw [hw]
      exact numeralText_eq_textOf rfl rfl rfl rfl rfl

/-- Settles O24: DEC by whether its text has an invalid character; the corner cases' least invalid characters and text
values are evaluated. -/
theorem decWritesTheTextValue : Obligations.DecWritesTheTextValue := by
  refine ⟨by decide, fun s hs => ?_, fun s j hj hlt => ?_,
    fun cmd s hop hcmd => commandRejected_of_plainOpcode hop (by decide) hcmd s, fun s t h => ?_⟩
  · have hmod : BitVec.ofNat 32 (textValue s.block.txt % 2 ^ 32) = BitVec.ofNat 32 (textValue s.block.txt) :=
      BitVec.eq_of_toNat_eq (by rw [BitVec.toNat_ofNat, BitVec.toNat_ofNat, Nat.mod_mod])
    rw [hmod]
    exact (exec_dec_of_validText hs).trans (ok_setWord s _)
  · exact exec_dec_of_some ((firstInvalid_eq_some_iff _ j).mpr ⟨hj, hlt⟩)
  · refine ⟨?_, ?_, ?_, ?_, ?_, ?_, ?_, ?_⟩
    · exact word_err_of_dec_textOf (n := 0) h (by decide) (numeralText_eq_textOf rfl rfl rfl rfl rfl)
    · exact word_err_of_dec_textOf (n := 0xFFFFFFFF) h (by decide) (numeralText_eq_textOf rfl rfl rfl rfl rfl)
    · exact word_err_of_dec_textOf (n := 0x100000000) h (by decide) (numeralText_eq_textOf rfl rfl rfl rfl rfl)
    · exact word_err_of_dec_textOf (n := 0x108780EC4) h (by decide) (numeralText_eq_textOf rfl rfl rfl rfl rfl)
    · exact word_err_of_dec_textOf (n := 0xB559F75B) h (by decide) (numeralText_eq_textOf rfl rfl rfl rfl rfl)
    · exact status_of_dec (j := 3) h (by decide)
    · exact status_of_dec (j := 0) h (by decide)
    · exact status_of_dec (j := 0) h (by decide)

/-- Settles O28: a block value is its numeral's text value, and a text below 2^32 its value's numeral. -/
theorem blockRoundTrip : Obligations.BlockRoundTrip := by
  constructor
  · intro s
    obtain ⟨t, ht, -⟩ := exec_goes_on .enc s
    obtain ⟨u, hu, -⟩ := exec_goes_on .dec t
    obtain ⟨hword, herr⟩ := word_err_of_dec hu (validText_of_enc ht)
    rw [textValue_of_enc ht, BitVec.ofNat_toNat, BitVec.setWidth_eq] at hword
    exact ⟨t, u, ht, hu, hword, herr⟩
  · intro s hvalid
    obtain ⟨t, ht, -⟩ := exec_goes_on .dec s
    obtain ⟨u, hu, -⟩ := exec_goes_on .enc t
    obtain ⟨hword, -⟩ := word_err_of_dec ht hvalid
    have hvalue : t.block.word.toNat = textValue s.block.txt % 2 ^ 32 := by rw [hword, BitVec.toNat_ofNat]
    refine ⟨t, u, ht, hu, fun hlt => ?_, fun hle => ⟨fun heq => ?_, fun k => ?_⟩⟩
    · rw [txt_of_enc hu, hvalue, Nat.mod_eq_of_lt hlt, numeralText_textValue hvalid]
    · have hlt := t.block.word.isLt
      rw [← textValue_of_enc hu, heq] at hlt
      exact Nat.not_le.mpr hlt hle
    · rw [txt_of_enc hu, hvalue, numeralText, digit_eq_numeralDigit, BitVec.toNat_ofNat, Nat.mod_mod]

/-- Settles O29: the texts are the numerals below 85^5, and a WORD is the value of those that agree with it modulo
2^32. -/
theorem overflowRegion : Obligations.OverflowRegion := by
  refine ⟨fun t ht => ?_, by decide, fun n hn => ?_, fun s t h => ?_, fun w hw => ?_, fun w hw => ?_, fun s w => ?_⟩
  · rw [overflow_iff_charValue]
    exact or_congr (eq_fwdRom_iff_charValue (ht 0) 83).symm (or_congr (eq_fwdRom_iff_charValue (ht 0) 84).symm
      (and_congr_left' (eq_fwdRom_iff_charValue (ht 0) 82).symm))
  · exact ⟨numeralText n, validText_numeralText n, textValue_numeralText hn,
      fun u hu hval => (eq_numeralText_iff hn).mpr ⟨hu, hval⟩⟩
  · exact ⟨validText_of_enc h, textValue_of_enc h ▸ s.block.word.isLt⟩
  · have hlow := toNat_lt_radix_pow w
    have hhigh : w.toNat + 2 ^ 32 < 85 ^ 5 := by omega
    refine ⟨numeralText w.toNat, numeralText (w.toNat + 2 ^ 32), fun heq => ?_, validText_numeralText _,
      validText_numeralText _, textValue_numeralText hlow, textValue_numeralText hhigh, fun s => ?_⟩
    · have hvalue := congrArg textValue heq
      rw [textValue_numeralText hlow, textValue_numeralText hhigh] at hvalue
      omega
    · rw [decodesTo_iff_textValue, eq_numeralText_iff hlow, eq_numeralText_iff hhigh, and_or_left]
  · have hlow := toNat_lt_radix_pow w
    refine ⟨numeralText w.toNat, validText_numeralText _, textValue_numeralText hlow, fun s => ?_⟩
    have hlt := textValue_lt s.block.txt
    have hhigh : textValue s.block.txt ≠ w.toNat + 2 ^ 32 := by omega
    rw [decodesTo_iff_textValue, eq_numeralText_iff hlow, or_iff_left hhigh]
  · rw [dec5_eq_value_iff, decodesTo_iff]

end Sys2Proof.Machine
end

section
/-! SUPPORT. The padding counter: the digit character CNTG writes for each length, when CNTX accepts a byte and the
counter it writes, and the words of both (spec/42_padding_counter.md R64 to R67). -/

namespace Sys2Proof.Machine

/-- A counter digit's code is in 0x30..0x33 (R64). -/
theorem isCounterDigit_iff {c : Byte} : isCounterDigit c = true ↔ 0x30 ≤ c.toNat ∧ c.toNat ≤ 0x33 :=
  decide_eq_true_iff

/-- The padding counter is 0 to 3 (R64). -/
theorem paddingFor_lt (len : Nat) : paddingFor len < 4 := Nat.mod_lt _ (by decide)

/-- The code of a length's counter digit (R66). -/
theorem toNat_counterDigitFor (len : Nat) : (counterDigitFor len).toNat = 0x30 + paddingFor len := by
  have hlt := paddingFor_lt len
  rw [counterDigitFor, counterBase, BitVec.toNat_add, BitVec.toNat_ofNat, BitVec.toNat_ofNat]
  omega

/-- The counter digit of a length is one that CNTX accepts (R67). -/
theorem isCounterDigit_counterDigitFor (len : Nat) : isCounterDigit (counterDigitFor len) = true := by
  have hlt := paddingFor_lt len
  rw [isCounterDigit_iff, toNat_counterDigitFor]
  omega

/-- The counter of a length's digit is the length's padding (R67). -/
theorem counterOf_counterDigitFor (len : Nat) : counterOf (counterDigitFor len) = paddingFor len := by
  rw [counterOf, toNat_counterDigitFor, Nat.add_sub_cancel_left]

/-- IMM8[1:0] is the operand modulo 4, so CNTG's padding is that of its operand as a length (R42, R66). -/
theorem paddingOf_lengthResidue (imm : Byte) : paddingOf (lengthResidue imm) = paddingFor imm.toNat := by
  have hresidue : (lengthResidue imm).toNat = imm.toNat % 4 := BitVec.extractLsb'_toNat ..
  rw [paddingOf, paddingFor, hresidue]

/-- CNTG writes the counter digit of its operand as a length (R66). -/
theorem exec_cntg (imm : Byte) (s : State) : exec (.cntg imm) s = ok (s.setResult (counterDigitFor imm.toNat)) := by
  rw [counterDigitFor, ← paddingOf_lengthResidue]
  rfl

/-- CNTX's subtraction does not wrap on a counter digit (R65). -/
theorem sub_counterBase {c : Byte} (h : isCounterDigit c = true) : c - counterBase = BitVec.ofNat 8 (counterOf c) := by
  obtain ⟨hlo, -⟩ := isCounterDigit_iff.mp h
  have hle : counterBase ≤ c := hlo
  rw [← BitVec.toNat_inj, BitVec.toNat_sub_of_le hle, counterOf, BitVec.toNat_ofNat, counterBase, BitVec.toNat_ofNat]
  omega

/-- CNTX of a counter digit writes its counter to RESULT (R65). -/
theorem exec_cntx_of_digit {imm : Byte} (h : isCounterDigit imm = true) (s : State) :
    exec (.cntx imm) s = ok (s.setResult (BitVec.ofNat 8 (counterOf imm))) := by
  rw [← sub_counterBase h]
  exact if_pos h

/-- CNTX of any other byte is InvalidCounter (R65). -/
theorem exec_cntx_of_not_digit {imm : Byte} (h : ¬ isCounterDigit imm = true) (s : State) :
    exec (.cntx imm) s = raise .invalidCounter 0#3 imm s :=
  if_neg h

/-- CNTX's words are 0x0000cc05 (R65). -/
theorem encode_cntx (imm : Byte) : encode (.cntx imm) = 0#16 ++ imm ++ 0x05#8 := by
  simp [encode_eq_lowByte, Instr.imm8, Instr.opcode]

/-- CNTG's words are 0x0000LL06 (R66). -/
theorem encode_cntg (imm : Byte) : encode (.cntg imm) = 0#16 ++ imm ++ 0x06#8 := by
  simp [encode_eq_lowByte, Instr.imm8, Instr.opcode]

/-- A word of an opcode is rejected when a reserved bit keeps it from the pattern 0x0000ii0o
(spec/30_encoding.md R45). -/
theorem commandRejected_of_ne_pattern {cmd : Word} {op : BitVec 4} (hop : opField cmd = op)
    (hcmd : ∀ imm : Byte, cmd ≠ 0#16 ++ imm ++ (0#4 ++ op)) (s : State) : commandRejected cmd s := by
  refine commandRejected_of_ne_encode (fun i hi => ?_) s
  rw [encode_eq_lowByte, hi, hop]
  exact hcmd i.imm8

end Sys2Proof.Machine
end

section
/-! SUPPORT. The obligations of the padding counter. -/

namespace Sys2Proof.Machine

/-- Settles O26: CNTG writes the digit of its operand as a length, its words are encodings, and any other word of its
opcode is rejected. -/
theorem cntgGeneratesTheDigit : Obligations.CntgGeneratesTheDigit := by
  refine ⟨fun imm s => ?_, fun imm => decode_eq_legal_iff.mpr ⟨encode_cntg imm, rfl⟩,
    fun cmd s hop hcmd => commandRejected_of_ne_pattern hop hcmd s⟩
  have hdigit : counterDigitFor imm.toNat = BitVec.ofNat 8 (0x30 + paddingFor imm.toNat) :=
    (BitVec.ofNat_add ..).symm
  rw [exec_cntg, hdigit]
  rfl

/-- Settles O30: CNTG's digit is one CNTX accepts, and its counter is the padding. -/
theorem cntxInvertsCntg : Obligations.CntxInvertsCntg := by
  intro imm s
  have hdigit := isCounterDigit_counterDigitFor imm.toNat
  refine ⟨_, _, exec_cntg imm s, exec_cntx_of_digit hdigit _, rfl, ?_⟩
  have hbyte : paddingFor imm.toNat < 2 ^ 8 := (paddingFor_lt _).trans (by decide)
  change (BitVec.ofNat 8 (counterOf (counterDigitFor imm.toNat))).toNat = paddingFor imm.toNat
  rw [counterOf_counterDigitFor, BitVec.toNat_ofNat, Nat.mod_eq_of_lt hbyte]

/-- Settles O25: a byte is a counter digit, whose counter CNTX writes, or it is not, which CNTX reports. -/
theorem cntxExtractsTheCounter : Obligations.CntxExtractsTheCounter := by
  refine ⟨fun imm s hlo hhi => exec_cntx_of_digit (isCounterDigit_iff.mpr ⟨hlo, hhi⟩) s, fun imm s h => ?_,
    fun imm => decode_eq_legal_iff.mpr ⟨encode_cntx imm, rfl⟩⟩
  have hother : ¬ isCounterDigit imm = true := by
    rw [isCounterDigit_iff]
    omega
  exact exec_cntx_of_not_digit hother s

end Sys2Proof.Machine
end

section
/-! SUPPORT. The STATUS word with no error recorded, and the words of NOP and CLRS with an operand
(spec/43_control.md R68, R69; spec/30_encoding.md R46). -/

namespace Sys2Proof.Machine

/-- With no error recorded, bit 31 of the STATUS word alone can be set: ANYERR (spec/10_state.md R16). -/
theorem toWord_noError (anyErr : Bool) :
    (⟨0#4, 0#3, 0x00#8, anyErr⟩ : Status).toWord = if anyErr = true then 0x80000000#32 else 0x00000000#32 := by
  cases anyErr with
  | false => decide
  | true => decide

/-- A word of NOP, ENC, DEC or CLRS with an operand records sub-cause 2 and the operand (spec/30_encoding.md R46). -/
theorem command_of_operandNotAllowed {cmd : Word} (hrsv0 : rsv0Field cmd = 0#4) (hrsv1 : rsv1Field cmd = 0#16)
    (hnone : takesNoOperand (opField cmd) = true) (himm : imm8Field cmd ≠ 0#8) (s : State) :
    command cmd s = raise .illegalCommand 2#3 (imm8Field cmd) s :=
  command_of_illegal (decode_of_operandNotAllowed hrsv0 hrsv1 hnone himm) s

end Sys2Proof.Machine
end

section
/-! SUPPORT. The obligations of the control commands. -/

namespace Sys2Proof.Machine

/-- Settles O19: NOP is a success with no write of its own, which leaves ANYERR alone of the STATUS word. -/
theorem nopClearsTheLastError : Obligations.NopClearsTheLastError := by
  refine ⟨decode_eq_legal_iff.mpr ⟨rfl, rfl⟩, fun s => rfl,
    fun cmd s hop hcmd => commandRejected_of_plainOpcode hop (by decide) hcmd s,
    command_of_operandNotAllowed rfl rfl rfl (by decide), fun s hs => ⟨_, rfl, ?_⟩⟩
  have hset : s.block.status.anyErr = true := by
    rw [← statusAnyErr_toWord, hs]
    rfl
  exact (toWord_noError _).trans (if_pos hset)

/-- Settles O20: CLRS writes the cleared STATUS, whose word is 0. -/
theorem clrsClearsStatus : Obligations.ClrsClearsStatus := by
  refine ⟨decode_eq_legal_iff.mpr ⟨rfl, rfl⟩, fun s => rfl,
    fun cmd s hop hcmd => commandRejected_of_plainOpcode hop (by decide) hcmd s,
    command_of_operandNotAllowed rfl rfl rfl (by decide), fun s t h => ?_⟩
  cases h
  exact toWord_noError false

end Sys2Proof.Machine
end

section
/-! SUPPORT. The stream functions block by block: an aligned payload or text is taken apart one block at a time, and each
block is encoded and decoded on its own (spec/45_stream_modes.md R72 to R74). -/

namespace Sys2Proof.Machine

@[simp] theorem Result.map_ok {α β : Type} (f : α → β) (v : α) : (Result.ok v).map f = .ok (f v) := rfl
@[simp] theorem Result.map_err {α β : Type} (f : α → β) (e : ErrorName) (d : Detail) :
    (Result.err e d).map f = .err e d := rfl

/-- Induction over the payloads whose length is a multiple of 4, one binary block at a time (R73). -/
theorem payloadInduction {motive : (p : List Byte) → p.length % 4 = 0 → Prop} (nil : motive [] rfl)
    (block : ∀ b0 b1 b2 b3 rest, ∀ h : rest.length % 4 = 0, motive rest h →
      motive (b0 :: b1 :: b2 :: b3 :: rest) ((Nat.add_mod_right _ 4).trans h)) :
    ∀ (p : List Byte) (h : p.length % 4 = 0), motive p h
  | [], _ => nil
  | _ :: _ :: _ :: _ :: rest, h =>
    have hrest := (Nat.add_mod_right rest.length 4).symm.trans h
    block _ _ _ _ rest hrest (payloadInduction nil block rest hrest)

/-- Induction over the texts whose length is a multiple of 5, one text block at a time (R74). -/
theorem textInduction {motive : (t : List Byte) → t.length % 5 = 0 → Prop} (nil : motive [] rfl)
    (block : ∀ c0 c1 c2 c3 c4 rest, ∀ h : rest.length % 5 = 0, motive rest h →
      motive (c0 :: c1 :: c2 :: c3 :: c4 :: rest) ((Nat.add_mod_right _ 5).trans h)) :
    ∀ (t : List Byte) (h : t.length % 5 = 0), motive t h
  | [], _ => nil
  | _ :: _ :: _ :: _ :: _ :: rest, h =>
    have hrest := (Nat.add_mod_right rest.length 5).symm.trans h
    block _ _ _ _ _ rest hrest (textInduction nil block rest hrest)

/-- A text block is its five characters. -/
theorem textOf_apply (t : Fin Config.blockChars → Byte) : textOf (t 0) (t 1) (t 2) (t 3) (t 4) = t := by
  funext k
  match k with
  | 0 => rfl
  | 1 => rfl
  | 2 => rfl
  | 3 => rfl
  | 4 => rfl

/-- bytes_be takes a block value apart into the bytes be32 made it of (spec/00_scope.md R7). -/
theorem bytesBe_be32 (b0 b1 b2 b3 : Byte) : bytesBe (be32 b0 b1 b2 b3) = [b0, b1, b2, b3] := by
  simp only [bytesBe, be32, BitVec.extractLsb'_append_eq_ite]
  simp

/-- enc5 writes the numeral of the block value (R72). -/
theorem enc5_eq_numeralText (w : Word) : enc5 w = [numeralText w.toNat 0, numeralText w.toNat 1,
    numeralText w.toNat 2, numeralText w.toNat 3, numeralText w.toNat 4] := rfl

/-- dec5 of a block value's numeral is the value: the wrap of 2^32 does not reach it (R72). -/
theorem dec5_numeralText (w : Word) : dec5 (numeralText w.toNat) = .value w := by
  rw [dec5_eq_value_iff, textValue_numeralText (toNat_lt_radix_pow w), BitVec.ofNat_toNat, BitVec.setWidth_eq]
  exact ⟨validText_numeralText _, rfl⟩

/-- dec5 answers a value, or the least invalid index and its character (R72). -/
theorem dec5_cases (t : Fin Config.blockChars → Byte) :
    (validText t ∧ dec5 t = .value (BitVec.ofNat 32 (textValue t))) ∨
    (∃ j, firstInvalid t = some j ∧ dec5 t = .bad j (t j)) := by
  cases h : firstInvalid t with
  | none => exact .inl ⟨firstInvalid_eq_none_iff_validText.mp h, by simp only [dec5, h]⟩
  | some j => exact .inr ⟨j, rfl, by simp only [dec5, h]⟩

@[simp] theorem encodeBlocks_nil : encodeBlocks [] = [] := rfl
@[simp] theorem encodeBlocks_block (b0 b1 b2 b3 : Byte) (rest : List Byte) :
    encodeBlocks (b0 :: b1 :: b2 :: b3 :: rest) = enc5 (be32 b0 b1 b2 b3) ++ encodeBlocks rest := rfl
@[simp] theorem decodeBlocks_nil (base : Nat) : decodeBlocks base [] = .ok [] := rfl

section
variable {base : Nat} {c0 c1 c2 c3 c4 : Byte} {rest : List Byte}

/-- A valid text block is decoded, and the rest of the text after it (R74). -/
theorem decodeBlocks_of_value {w : Word} (h : dec5 (textOf c0 c1 c2 c3 c4) = .value w) :
    decodeBlocks base (c0 :: c1 :: c2 :: c3 :: c4 :: rest) =
      (decodeBlocks (base + 5) rest).map (bytesBe w ++ ·) := by
  simp only [decodeBlocks, h]

/-- An invalid character ends the decoding (R74). -/
theorem decodeBlocks_of_bad {j : Fin Config.blockChars} {c : Byte} (h : dec5 (textOf c0 c1 c2 c3 c4) = .bad j c) :
    decodeBlocks base (c0 :: c1 :: c2 :: c3 :: c4 :: rest) = .err .invalidCharacter (.char (base + j.val) c) := by
  simp only [decodeBlocks, h]

end

/-- The text of a block value is decoded to its bytes. -/
theorem decodeBlocks_enc5_append (base : Nat) (w : Word) (text : List Byte) :
    decodeBlocks base (enc5 w ++ text) = (decodeBlocks (base + 5) text).map (bytesBe w ++ ·) :=
  decodeBlocks_of_value ((congrArg dec5 (textOf_apply _)).trans (dec5_numeralText w))

section
variable {p : List Byte} (h : p.length % 4 = 0)
include h

/-- Decoding the encoded blocks gives the payload back (R84). -/
theorem decodeBlocks_encodeBlocks (base : Nat) : decodeBlocks base (encodeBlocks p) = .ok p := by
  induction p, h using payloadInduction generalizing base with
  | nil => rfl
  | block b0 b1 b2 b3 rest _ ih =>
    rw [encodeBlocks_block, decodeBlocks_enc5_append, ih, bytesBe_be32]
    rfl

/-- Four bytes become five characters (R83). -/
theorem length_encodeBlocks : (encodeBlocks p).length = p.length / 4 * 5 := by
  induction p, h using payloadInduction with
  | nil => rfl
  | block b0 b1 b2 b3 rest _ ih =>
    simp only [encodeBlocks_block, enc5_eq_numeralText, List.length_append, List.length_cons, List.length_nil, ih]
    omega

/-- The encoded blocks hold alphabet characters (R86). -/
theorem inAlphabet_of_mem_encodeBlocks : ∀ c ∈ encodeBlocks p, inAlphabet c = true := by
  induction p, h using payloadInduction with
  | nil => nofun
  | block b0 b1 b2 b3 rest _ ih =>
    intro c hc
    obtain hc | hc := List.mem_append.mp hc
    · obtain ⟨k, -, rfl⟩ := List.mem_map.mp hc
      exact validText_numeralText _ k
    · exact ih c hc

end

end Sys2Proof.Machine
end

section
/-! SUPPORT. The first character of a text that is not in the alphabet, and what decoding a text's blocks answers
(spec/45_stream_modes.md R74, spec/60_exceptions.md R92). -/

namespace Sys2Proof.Machine

/-- The character c at position p is the first of the text that is not in the alphabet (R74, R92). -/
def FirstInvalidAt (t : List Byte) (p : Nat) (c : Byte) : Prop :=
  t[p]? = some c ∧ inAlphabet c = false ∧ ∀ (q : Nat) (d : Byte), q < p → t[q]? = some d → inAlphabet d = true

section
variable {t u : List Byte} {p : Nat} {c : Byte}

/-- A text has at most one first invalid character. -/
theorem FirstInvalidAt.unique {p' : Nat} {c' : Byte} (h : FirstInvalidAt t p c) (h' : FirstInvalidAt t p' c') :
    p = p' ∧ c = c' := by
  obtain ⟨hat, hinvalid, hearlier⟩ := h
  obtain ⟨hat', hinvalid', hearlier'⟩ := h'
  obtain hlt | rfl | hgt := Nat.lt_trichotomy p p'
  · exact absurd (hinvalid.symm.trans (hearlier' p c hlt hat)) Bool.false_ne_true
  · exact ⟨rfl, Option.some.inj (hat.symm.trans hat')⟩
  · exact absurd (hinvalid'.symm.trans (hearlier p' c' hgt hat')) Bool.false_ne_true

/-- A text of alphabet characters has no first invalid character. -/
theorem not_firstInvalidAt (ht : ∀ d ∈ t, inAlphabet d = true) : ¬ FirstInvalidAt t p c := by
  rintro ⟨hat, hinvalid, -⟩
  exact absurd (hinvalid.symm.trans (ht c (List.mem_of_getElem? hat))) Bool.false_ne_true

/-- What follows the first invalid character does not matter. -/
theorem FirstInvalidAt.append_right (h : FirstInvalidAt t p c) (u : List Byte) : FirstInvalidAt (t ++ u) p c := by
  obtain ⟨hat, hinvalid, hearlier⟩ := h
  have hp := (List.getElem?_eq_some_iff.mp hat).1
  refine ⟨List.getElem?_append_left hp ▸ hat, hinvalid, fun q d hq hd => hearlier q d hq ?_⟩
  rwa [List.getElem?_append_left (hq.trans hp)] at hd

/-- After a text of alphabet characters, the first invalid character is that of what follows. -/
theorem FirstInvalidAt.append_left (h : FirstInvalidAt t p c) (hu : ∀ d ∈ u, inAlphabet d = true) :
    FirstInvalidAt (u ++ t) (u.length + p) c := by
  obtain ⟨hat, hinvalid, hearlier⟩ := h
  refine ⟨?_, hinvalid, fun q d hq hd => ?_⟩
  · rwa [List.getElem?_append_right (Nat.le_add_right _ _), Nat.add_sub_cancel_left]
  · rw [List.getElem?_append] at hd
    split at hd
    case isTrue => exact hu d (List.mem_of_getElem? hd)
    case isFalse hle => exact hearlier _ d (by omega) hd

end

/-- A block's least invalid index is the place of its first invalid character (R72). -/
theorem firstInvalidAt_of_firstInvalid {t : Fin Config.blockChars → Byte} {j : Fin Config.blockChars}
    (h : firstInvalid t = some j) : FirstInvalidAt (List.ofFn t) j.val (t j) := by
  obtain ⟨hinvalid, hearlier⟩ := (firstInvalid_eq_some_iff t j).mp h
  refine ⟨(List.getElem?_ofFn ..).trans (dif_pos j.isLt), hinvalid, fun q d hq hd => ?_⟩
  obtain ⟨hq5, rfl⟩ := List.getElem?_eq_some_iff.mp hd
  rw [List.getElem_ofFn]
  exact hearlier _ hq

/-- The blocks of an aligned text decode to four bytes each when every character is in the alphabet; else the first
invalid character of the whole text is reported (R74, R83, R92). -/
theorem decodeBlocks_cases {t : List Byte} (h : t.length % 5 = 0) (base : Nat) :
    ((∀ c ∈ t, inAlphabet c = true) ∧ ∃ out, decodeBlocks base t = .ok out ∧ out.length = t.length / 5 * 4) ∨
    (∃ p c, FirstInvalidAt t p c ∧ decodeBlocks base t = .err .invalidCharacter (.char (base + p) c)) := by
  induction t, h using textInduction generalizing base with
  | nil => exact .inl ⟨nofun, [], rfl, rfl⟩
  | block c0 c1 c2 c3 c4 rest _ ih =>
    obtain ⟨hvalid, hdec⟩ | ⟨j, hj, hdec⟩ := dec5_cases (textOf c0 c1 c2 c3 c4)
    · have hblock : ∀ c ∈ List.ofFn (textOf c0 c1 c2 c3 c4), inAlphabet c = true := by
        rw [List.forall_mem_ofFn_iff]
        exact hvalid
      have hcons := decodeBlocks_of_value (base := base) (rest := rest) hdec
      obtain ⟨hrest, out, hout, hlength⟩ | ⟨p, c, hfirst, herr⟩ := ih (base + 5)
      · rw [hout, Result.map_ok] at hcons
        refine .inl ⟨List.forall_mem_append.mpr ⟨hblock, hrest⟩, _, hcons, ?_⟩
        simp only [bytesBe, List.length_append, List.length_cons, List.length_nil, hlength]
        omega
      · rw [herr, Result.map_err, Nat.add_assoc] at hcons
        exact .inr ⟨5 + p, c, hfirst.append_left hblock, hcons⟩
    · exact .inr ⟨j, _, (firstInvalidAt_of_firstInvalid hj).append_right rest, decodeBlocks_of_bad hdec⟩

end Sys2Proof.Machine
end

section
/-! SUPPORT. What each stream operation answers, case by case: strict and padded mode and the counter
(spec/45_stream_modes.md R73 to R77). -/

namespace Sys2Proof.Machine

section
variable {p t y : List Byte}

/-- encode_strict of an unaligned payload fails (R73). -/
theorem encodeStrict_of_unaligned (h : p.length % 4 ≠ 0) : encodeStrict p = .err .invalidLength (.length p.length) :=
  if_pos h

/-- encode_strict of an aligned payload encodes its blocks (R73). -/
theorem encodeStrict_of_aligned (h : p.length % 4 = 0) : encodeStrict p = .ok (encodeBlocks p) :=
  if_neg (not_not.mpr h)

/-- encode_strict succeeds on the aligned payloads alone (R73). -/
theorem encodeStrict_eq_ok_iff : encodeStrict p = .ok y ↔ p.length % 4 = 0 ∧ encodeBlocks p = y := by
  by_cases h : p.length % 4 = 0
  · rw [encodeStrict_of_aligned h, Result.ok.injEq, and_iff_right h]
  · rw [encodeStrict_of_unaligned h]
    exact iff_of_false nofun fun hy => h hy.1

/-- decode_strict checks the length before any character (R74). -/
theorem decodeStrict_of_unaligned (h : t.length % 5 ≠ 0) : decodeStrict t = .err .invalidLength (.length t.length) :=
  if_pos h

/-- decode_strict of an aligned text decodes its blocks (R74). -/
theorem decodeStrict_of_aligned (h : t.length % 5 = 0) : decodeStrict t = decodeBlocks 0 t :=
  if_neg (not_not.mpr h)

/-- decode_strict reports a length, decodes alphabet characters, or reports the first invalid character (R74). -/
theorem decodeStrict_cases (t : List Byte) :
    (t.length % 5 ≠ 0 ∧ decodeStrict t = .err .invalidLength (.length t.length)) ∨
    (t.length % 5 = 0 ∧ (∀ c ∈ t, inAlphabet c = true) ∧
      ∃ out, decodeStrict t = .ok out ∧ out.length = t.length / 5 * 4) ∨
    (t.length % 5 = 0 ∧ ∃ p c, FirstInvalidAt t p c ∧ decodeStrict t = .err .invalidCharacter (.char p c)) := by
  by_cases h : t.length % 5 = 0
  · rw [decodeStrict_of_aligned h]
    obtain ⟨hvalid, hok⟩ | ⟨p, c, hfirst, herr⟩ := decodeBlocks_cases h 0
    · exact .inr (.inl ⟨h, hvalid, hok⟩)
    · exact .inr (.inr ⟨h, p, c, hfirst, Nat.zero_add p ▸ herr⟩)
  · exact .inl ⟨h, decodeStrict_of_unaligned h⟩

/-- What encode_strict makes of a payload decodes to it (R84). -/
theorem decodeStrict_of_encodeStrict (h : encodeStrict p = .ok y) : decodeStrict y = .ok p := by
  obtain ⟨hp, rfl⟩ := encodeStrict_eq_ok_iff.mp h
  have haligned : (encodeBlocks p).length % 5 = 0 := by rw [length_encodeBlocks hp, Nat.mul_mod_left]
  rw [decodeStrict_of_aligned haligned, decodeBlocks_encodeBlocks hp]

/-- The filler brings a payload to the next multiple of 4 (R75). -/
theorem length_withFiller (p : List Byte) : (withFiller p).length = (p.length + 3) / 4 * 4 := by
  rw [withFiller, List.length_append, List.length_replicate, paddingFor]
  omega

/-- A payload with its filler is aligned (R75). -/
theorem withFiller_aligned (p : List Byte) : (withFiller p).length % 4 = 0 := by
  rw [length_withFiller, Nat.mul_mod_left]

/-- encode_padded encodes every payload (R75). -/
theorem encodePadded_eq (p : List Byte) :
    encodePadded p = .ok (encodeBlocks (withFiller p) ++ [counterDigitFor p.length]) := by
  rw [encodePadded, encodeStrict_of_aligned (withFiller_aligned p), Result.map_ok]

/-- The counter of an aligned payload is '0' (R75). -/
theorem counterDigitFor_of_aligned {n : Nat} (h : n % 4 = 0) : counterDigitFor n = 0x30#8 := by
  rw [counterDigitFor, paddingFor, h]
  rfl

/-- An aligned payload takes no filler (R75). -/
theorem withFiller_of_aligned (h : p.length % 4 = 0) : withFiller p = p := by
  rw [withFiller, paddingFor, h]
  exact List.append_nil p

/-- The filler is dropped whole (R76). -/
theorem dropFiller_append (p filler : List Byte) : dropFiller filler.length (p ++ filler) = .ok p := by
  simp [dropFiller]

/-- Dropping the filler fails when the counter exceeds the decoded length, else drops that many bytes (R76). -/
theorem dropFiller_cases (n : Nat) (decoded : List Byte) :
    (decoded.length < n ∧ dropFiller n decoded = .err .invalidPadding (.padding n decoded.length)) ∨
    (n ≤ decoded.length ∧ ∃ out, dropFiller n decoded = .ok out ∧ out.length = decoded.length - n) := by
  by_cases h : decoded.length < n
  · exact .inl ⟨h, if_pos h⟩
  · exact .inr ⟨Nat.not_lt.mp h, _, if_neg h, by simp⟩

end

section
variable {body : List Byte} {d : Byte}

/-- The counter of a digit is 0 to 3 (R64, R76). -/
theorem counterOf_le (h : isCounterDigit d = true) : counterOf d ≤ 3 :=
  Nat.sub_le_of_le_add (isCounterDigit_iff.mp h).2

/-- extract_counter of a text that ends in a counter digit (R77). -/
theorem extractCounter_of_digit (h : isCounterDigit d = true) : extractCounter (body ++ [d]) = .ok (counterOf d) := by
  rw [extractCounter, List.getLast?_concat]
  exact if_pos h

/-- extract_counter of a text that ends in any other character (R77). -/
theorem extractCounter_of_not_digit (h : ¬ isCounterDigit d = true) :
    extractCounter (body ++ [d]) = .err .invalidCounter (.counter d) := by
  rw [extractCounter, List.getLast?_concat]
  exact if_neg h

/-- decode_padded checks the counter first (R76). -/
theorem decodePadded_of_not_digit (h : ¬ isCounterDigit d = true) :
    decodePadded (body ++ [d]) = .err .invalidCounter (.counter d) := by
  rw [decodePadded, List.getLast?_concat]
  exact if_pos (Bool.eq_false_iff.mpr h)

section
variable (hd : isCounterDigit d = true)
include hd

/-- decode_padded checks the length of the body second (R76). -/
theorem decodePadded_of_unaligned (h : body.length % 5 ≠ 0) :
    decodePadded (body ++ [d]) = .err .invalidLength (.length body.length) := by
  simp only [decodePadded, List.getLast?_concat, List.dropLast_concat, hd, Bool.true_eq_false, if_false]
  exact if_pos h

/-- decode_padded reports the invalid character of the body third (R76). -/
theorem decodePadded_of_err {e : ErrorName} {detail : Detail} (h : body.length % 5 = 0)
    (herr : decodeStrict body = .err e detail) : decodePadded (body ++ [d]) = .err e detail := by
  simp only [decodePadded, List.getLast?_concat, List.dropLast_concat, hd, Bool.true_eq_false, if_false, herr]
  exact if_neg (not_not.mpr h)

/-- decode_padded drops the filler from the decoded body last (R76). -/
theorem decodePadded_of_ok {decoded : List Byte} (h : body.length % 5 = 0) (hok : decodeStrict body = .ok decoded) :
    decodePadded (body ++ [d]) = dropFiller (counterOf d) decoded := by
  simp only [decodePadded, List.getLast?_concat, List.dropLast_concat, hd, Bool.true_eq_false, if_false, hok]
  exact if_neg (not_not.mpr h)

end

/-- decode_padded of a text with a last character reports the counter, the length of the body, its first invalid
character or the padding of an empty body, or drops as many bytes as the counter says (R76). -/
theorem decodePadded_cases (body : List Byte) (d : Byte) :
    decodePadded (body ++ [d]) = .err .invalidCounter (.counter d) ∨
    decodePadded (body ++ [d]) = .err .invalidLength (.length body.length) ∨
    (∃ p c, decodePadded (body ++ [d]) = .err .invalidCharacter (.char p c)) ∨
    (isCounterDigit d = true ∧ body = [] ∧ 0 < counterOf d ∧
      decodePadded (body ++ [d]) = .err .invalidPadding (.padding (counterOf d) 0)) ∨
    (isCounterDigit d = true ∧ body.length % 5 = 0 ∧ counterOf d ≤ body.length / 5 * 4 ∧
      ∃ out, decodePadded (body ++ [d]) = .ok out ∧ out.length = body.length / 5 * 4 - counterOf d) := by
  by_cases hd : isCounterDigit d = true
  · obtain ⟨h, -⟩ | ⟨h, -, decoded, hok, hlength⟩ | ⟨h, p, c, -, herr⟩ := decodeStrict_cases body
    · exact .inr (.inl (decodePadded_of_unaligned hd h))
    · have hcounter := counterOf_le hd
      have hdrop := dropFiller_cases (counterOf d) decoded
      rw [← decodePadded_of_ok hd h hok, hlength] at hdrop
      obtain ⟨hlt, herr⟩ | ⟨hle, hout⟩ := hdrop
      · obtain rfl : body = [] := List.eq_nil_of_length_eq_zero (by omega)
        exact .inr (.inr (.inr (.inl ⟨hd, rfl, hlt, herr⟩)))
      · exact .inr (.inr (.inr (.inr ⟨hd, h, hle, hout⟩)))
    · exact .inr (.inr (.inl ⟨p, c, decodePadded_of_err hd h herr⟩))
  · exact .inl (decodePadded_of_not_digit hd)

end

/-- What encode_padded makes of a payload decodes to it (R84). -/
theorem decodePadded_of_encodePadded {p y : List Byte} (h : encodePadded p = .ok y) : decodePadded y = .ok p := by
  obtain rfl := Result.ok.inj ((encodePadded_eq p).symm.trans h)
  have hbody : (encodeBlocks (withFiller p)).length % 5 = 0 := by
    rw [length_encodeBlocks (withFiller_aligned p), Nat.mul_mod_left]
  have hdecoded := decodeStrict_of_encodeStrict (encodeStrict_of_aligned (withFiller_aligned p))
  have hdrop := dropFiller_append p (List.replicate (paddingFor p.length) 0x00#8)
  rw [List.length_replicate] at hdrop
  rw [decodePadded_of_ok (isCounterDigit_counterDigitFor _) hbody hdecoded, counterOf_counterDigitFor]
  exact hdrop

end Sys2Proof.Machine
end

section
/-! SUPPORT. The obligations of the stream functions. -/

namespace Sys2Proof.Machine

/-- Settles O42: the strict round trip block by block, the padded one with the filler dropped, and the counter of a
length's digit. -/
theorem streamRoundTrips : Obligations.StreamRoundTrips := by
  refine ⟨fun x hx => ⟨_, encodeStrict_of_aligned hx, decodeStrict_of_encodeStrict (encodeStrict_of_aligned hx)⟩,
    fun x => ⟨_, encodePadded_eq x, decodePadded_of_encodePadded (encodePadded_eq x), ?_⟩⟩
  rw [extractCounter_of_digit (isCounterDigit_counterDigitFor _), counterOf_counterDigitFor]
  rfl

/-- Settles O43: the lengths of the blocks, of the filler, and of what decode_padded drops. -/
theorem streamLengthLaws : Obligations.StreamLengthLaws := by
  refine ⟨fun x y h => ?_, fun x y h => ?_, fun x y h => ?_, fun x t n hx hn => ?_⟩
  · obtain ⟨hx, rfl⟩ := encodeStrict_eq_ok_iff.mp h
    rw [length_encodeBlocks hx]
    omega
  · obtain ⟨-, herr⟩ | ⟨hy, -, out, hok, hlength⟩ | ⟨-, p, c, -, herr⟩ := decodeStrict_cases y
    · cases herr.symm.trans h
    · cases hok.symm.trans h
      omega
    · cases herr.symm.trans h
  · obtain rfl := Result.ok.inj ((encodePadded_eq x).symm.trans h)
    rw [List.length_append, List.length_singleton, length_encodeBlocks (withFiller_aligned x), length_withFiller,
      Nat.mul_div_cancel _ (by decide)]
  · obtain rfl | ⟨body, d, rfl⟩ := t.eq_nil_or_concat'
    · cases hx
    · obtain h | h | ⟨p, c, h⟩ | ⟨-, -, -, h⟩ | ⟨hd, hbody, hle, out, h, hlength⟩ := decodePadded_cases body d
      · cases h.symm.trans hx
      · cases h.symm.trans hx
      · cases h.symm.trans hx
      · cases h.symm.trans hx
      · cases h.symm.trans hx
        cases (extractCounter_of_digit hd).symm.trans hn
        rw [List.length_append, List.length_singleton, Nat.add_sub_cancel]
        omega

/-- Settles O44: the blocks hold numerals, and the last padded character is a counter digit. -/
theorem streamOutputAlphabet : Obligations.StreamOutputAlphabet := by
  refine ⟨fun x y h => ?_, fun x y h => ⟨_, _, (Result.ok.inj ((encodePadded_eq x).symm.trans h)).symm, ?_, ?_⟩⟩
  · obtain ⟨hx, rfl⟩ := encodeStrict_eq_ok_iff.mp h
    exact inAlphabet_of_mem_encodeBlocks hx
  · exact inAlphabet_of_mem_encodeBlocks (withFiller_aligned x)
  · have hcode := toNat_counterDigitFor x.length
    have hlt := paddingFor_lt x.length
    simp only [List.mem_cons, List.not_mem_nil, or_false, ← BitVec.toNat_inj, BitVec.toNat_ofNat]
    omega

/-- Settles O45: an aligned payload takes no filler and counter '0'; a strict text without its last character is no
multiple of 5. -/
theorem paddedTextIsStrictTextWithCounter : Obligations.PaddedTextIsStrictTextWithCounter := by
  refine ⟨fun x hx => ⟨_, encodeStrict_of_aligned hx, ?_⟩, fun x body d h => ⟨fun hcode => ?_, fun hlo hhi => ?_⟩⟩
  · rw [encodePadded_eq, withFiller_of_aligned hx, counterDigitFor_of_aligned hx]
  · refine decodePadded_of_not_digit ?_
    rw [isCounterDigit_iff]
    omega
  · obtain ⟨hx, htext⟩ := encodeStrict_eq_ok_iff.mp h
    have hlength := length_encodeBlocks hx
    rw [htext, List.length_append, List.length_singleton] at hlength
    exact decodePadded_of_unaligned (isCounterDigit_iff.mpr ⟨hlo, hhi⟩) (by omega)

/-- Settles O46: a counter is at most 3, and a body that is not empty decodes to four bytes or more. -/
theorem invalidPaddingOnlyForEmptyBody : Obligations.InvalidPaddingOnlyForEmptyBody := by
  refine fun t detail => ⟨fun hpad => ?_, ?_⟩
  · obtain rfl | ⟨body, d, rfl⟩ := t.eq_nil_or_concat'
    · cases hpad
    · obtain h | h | ⟨p, c, h⟩ | ⟨hd, rfl, hpos, h⟩ | ⟨-, -, -, out, h, -⟩ := decodePadded_cases body d
      · cases h.symm.trans hpad
      · cases h.symm.trans hpad
      · cases h.symm.trans hpad
      · cases h.symm.trans hpad
        exact ⟨d, rfl, Nat.lt_of_sub_pos hpos, (isCounterDigit_iff.mp hd).2, rfl⟩
      · cases h.symm.trans hpad
  · rintro ⟨d, rfl, hlo, hhi, rfl⟩
    have hd : isCounterDigit d = true := isCounterDigit_iff.mpr ⟨Nat.le_of_lt hlo, hhi⟩
    exact (decodePadded_of_ok (body := []) hd rfl rfl).trans (if_pos (Nat.sub_pos_of_lt hlo))

/-- Settles O47: a text has one first invalid character, and an aligned text that has one does not decode. -/
theorem decodeStrictReportsTheFirstInvalid : Obligations.DecodeStrictReportsTheFirstInvalid := by
  intro t p c
  change _ ↔ t.length % 5 = 0 ∧ FirstInvalidAt t p c
  obtain ⟨hlen, herr⟩ | ⟨-, hvalid, out, hok, -⟩ | ⟨hlen, p', c', hfirst, herr⟩ := decodeStrict_cases t
  · rw [herr]
    exact iff_of_false nofun fun h => hlen h.1
  · rw [hok]
    exact iff_of_false nofun fun h => not_firstInvalidAt hvalid h.2
  · rw [herr]
    constructor
    · intro h
      cases h
      exact ⟨hlen, hfirst⟩
    · rintro ⟨-, h⟩
      obtain ⟨rfl, rfl⟩ := hfirst.unique h
      rfl

/-- Settles O49: the texts are decoded by evaluation; a payload that encoded to one of the first two would be what the
text decodes to, and that encodes to another text. -/
theorem decodersAcceptMoreThanEncodersProduce : Obligations.DecodersAcceptMoreThanEncodersProduce := by
  have hoverflow : decodeStrict [0x25#8, 0x6E#8, 0x53#8, 0x63#8, 0x31#8] = .ok [0x00#8, 0x00#8, 0x00#8, 0x00#8] := by
    decide
  have hfiller : decodePadded [0x48#8, 0x65#8, 0x6C#8, 0x6C#8, 0x6F#8, 0x33#8] = .ok [0x86#8] := by decide
  refine ⟨hoverflow, by decide, fun x hx => ?_, hfiller, fun x hx => ?_, by decide, by decide, by decide, by decide⟩
  · cases hoverflow.symm.trans (decodeStrict_of_encodeStrict hx)
    exact absurd hx (by decide)
  · cases hfiller.symm.trans (decodePadded_of_encodePadded hx)
    exact absurd hx (by decide)

end Sys2Proof.Machine
end

section
/-! SUPPORT. A host program's accesses on the machine: the pseudo-instructions, the command writes and the reads of the
procedures (spec/30_encoding.md R50, R51; spec/45_stream_modes.md R78 to R82). -/

namespace Sys2Proof.Machine

/-- RD STATUS, and RD of another register unless STATUS reports the error: what R79, R81 and R82 do after their command.
The program goes on with the word it read last. -/
def HostProgram.readUnless {α : Type} (e : ErrorName) (idx : BitVec 4) (fail next : Word → HostProgram α) :
    HostProgram α :=
  .rd Reg.status.idx fun st => if statusErr st = e.code then fail st else .rd idx next

section
variable {α : Type} (s : State)

/-- A program that has ended returns its result. -/
theorem run_done (a : α) : (HostProgram.done a).run s = some (a, s) := rfl

/-- A write of WORD by a host program. -/
theorem run_wr_word (v : Word) (next : HostProgram α) :
    (HostProgram.wr Reg.word.idx v next).run s = next.run (s.advance.setWord v) :=
  run_wr _ _ _ _ _ rfl

/-- A write of TXT[k] by a host program. -/
theorem run_wr_txt (k : Fin Config.blockChars) (v : Word) (next : HostProgram α) :
    (HostProgram.wr (Reg.txt k).idx v next).run s = next.run (s.advance.setTxt k (lowByte v)) := by
  match k with
  | 0 | 1 | 2 | 3 | 4 => exact run_wr _ _ _ _ _ rfl

/-- The indices of TXT0..TXT4 follow one another from 4 (spec/20_memory.md R23). -/
theorem idx_txt (k : Fin Config.blockChars) : (Reg.txt k).idx = BitVec.ofNat 4 (4 + k.val) := by
  match k with
  | 0 | 1 | 2 | 3 | 4 => rfl

/-- WRTXT leaves the five characters in TXT (spec/30_encoding.md R51). -/
theorem run_writeText (c0 c1 c2 c3 c4 : Byte) (next : HostProgram α) : ∃ t,
    (HostProgram.writeText c0 c1 c2 c3 c4 next).run s = next.run t ∧ t.block.txt = textOf c0 c1 c2 c3 c4 ∧
      t.pending = s.pending ∧ t.block.result = s.block.result := by
  refine ⟨{ s.setText (textOf c0 c1 c2 c3 c4) with position := s.position + 5 }, ?_, setText_txt s _, rfl, rfl⟩
  simp only [HostProgram.writeText, run_wr_txt, lowByte_zext32]
  rfl

/-- RDTXT gives the five characters of TXT in order (spec/30_encoding.md R51). -/
theorem run_readText (next : List Byte → HostProgram α) : (HostProgram.readText next).run s =
    (next (charIndices.map s.block.txt)).run
      { s with position := s.position + 5, reads := s.reads ++ charIndices.map (fun k => zext32 (s.block.txt k)) } := by
  simp only [HostProgram.readText, run_rd, idx_txt, regRead_txt, lowByte_zext32, State.record, State.advance,
    List.append_assoc]
  rfl

/-- The write of a well-formed command's encoding executes it at the next position (spec/30_encoding.md R48). -/
theorem run_command {i : Instr} (hi : i.wellFormed = true) (next : HostProgram α) {t : State}
    (h : exec i s.advance = .next t) : (HostProgram.command i next).run s = next.run t :=
  run_wr _ _ _ _ _ ((command_of_legal (decode_eq_legal_iff.mpr ⟨rfl, hi⟩) _).trans h)

section
variable {i : Instr} (hi : i.wellFormed = true) {e : ErrorName} {idx : BitVec 4} (fail next : Word → HostProgram α)
include hi

/-- After a command that succeeds STATUS reports no error, and the register is read. -/
theorem run_command_readUnless_of_ok {d : State} (h : exec i s.advance = ok d) (he : e ≠ .none) : ∃ t,
    (HostProgram.command i (.readUnless e idx fail next)).run s =
        (next (regRead idx (d.setStatus d.block.status.succeed).block)).run t ∧
      t.block = (d.setStatus d.block.status.succeed).block ∧ t.pending = d.pending := by
  have hread : statusErr d.block.status.succeed.toWord ≠ e.code :=
    (statusErr_toWord _).trans_ne (ErrorName.code_ne_zero he).symm
  have hrun := (run_command s hi (.readUnless e idx fail next) h).trans (run_rd ..)
  have hnext := hrun.trans (congrArg (HostProgram.run · _) (if_neg hread))
  exact ⟨_, hnext.trans (run_rd ..), rfl, rfl⟩

/-- After a command that fails with the error STATUS reports its position and byte, and nothing else has changed. -/
theorem run_command_readUnless_of_raise {pos : BitVec 3} {byte : Byte}
    (h : exec i s.advance = raise e pos byte s.advance) : ∃ st t,
    (HostProgram.command i (.readUnless e idx fail next)).run s = (fail st).run t ∧ statusPos st = pos ∧
      statusByte st = byte ∧ t.block = (s.setStatus (Status.failed e pos byte)).block ∧ t.pending = s.pending := by
  have hread : statusErr (Status.failed e pos byte).toWord = e.code := statusErr_toWord _
  have hrun := (run_command s hi (.readUnless e idx fail next) h).trans (run_rd ..)
  exact ⟨_, _, hrun.trans (congrArg (HostProgram.run · _) (if_pos hread)), statusPos_toWord _, statusByte_toWord _,
    rfl, rfl⟩

end

/-- A block of R78's loop: seven accesses, with enc5 of the block value read back. -/
theorem run_encodeBlock (w : Word) (next : List Byte → HostProgram α) : ∃ t,
    (HostProgram.wr Reg.word.idx w (.command .enc (.readText next))).run s = (next (enc5 w)).run t ∧
      t.pending = s.pending ∧ t.block.result = s.block.result ∧ t.position = s.position + 7 :=
  ⟨_, (run_wr_word s w _).trans ((run_command _ rfl _ (exec_enc _)).trans (run_readText _ next)), rfl, rfl, rfl⟩

/-- DEC of a text that dec5 gives a value writes it to WORD (R61, R72). -/
theorem exec_dec_of_value {w : Word} (h : dec5 s.block.txt = .value w) : exec .dec s = ok (s.setWord w) := by
  obtain ⟨hvalid, rfl⟩ := dec5_eq_value_iff.mp h
  exact exec_dec_of_validText hvalid

/-- DEC of a text that dec5 finds bad reports the character (R61, R72). -/
theorem exec_dec_of_bad {j : Fin Config.blockChars} {c : Byte} (h : dec5 s.block.txt = .bad j c) :
    exec .dec s = raise .invalidCharacter (BitVec.ofNat 3 j.val) c s := by
  obtain ⟨-, hvalue⟩ | ⟨i, hi, hbad⟩ := dec5_cases s.block.txt
  · cases hvalue.symm.trans h
  · cases hbad.symm.trans h
    exact exec_dec_of_some hi

section
variable {c0 c1 c2 c3 c4 : Byte} (fail next : Word → HostProgram α)

/-- A valid block of R79's loop: its value is read from WORD. -/
theorem run_decodeBlock_of_value {w : Word} (h : dec5 (textOf c0 c1 c2 c3 c4) = .value w) : ∃ t,
    (HostProgram.writeText c0 c1 c2 c3 c4
      (.command .dec (.readUnless .invalidCharacter Reg.word.idx fail next))).run s = (next w).run t ∧
      t.pending = s.pending ∧ t.block.result = s.block.result := by
  obtain ⟨u, hu, htxt, hupend, huresult⟩ := run_writeText s c0 c1 c2 c3 c4 _
  have hdec := exec_dec_of_value u.advance ((congrArg dec5 htxt).trans h)
  obtain ⟨t, ht, hblock, hpend⟩ :=
    run_command_readUnless_of_ok u rfl (e := .invalidCharacter) (idx := Reg.word.idx) fail next hdec (by decide)
  exact ⟨t, hu.trans ht, hpend.trans hupend, (congrArg Block.result hblock).trans huresult⟩

/-- A block of R79's loop with an invalid character: it is read from STATUS. -/
theorem run_decodeBlock_of_bad {j : Fin Config.blockChars} {c : Byte}
    (h : dec5 (textOf c0 c1 c2 c3 c4) = .bad j c) : ∃ st t,
    (HostProgram.writeText c0 c1 c2 c3 c4
      (.command .dec (.readUnless .invalidCharacter Reg.word.idx fail next))).run s = (fail st).run t ∧
      (statusPos st).toNat = j.val ∧ statusByte st = c ∧ t.pending = s.pending ∧
      t.block.result = s.block.result := by
  have hindex : (BitVec.ofNat 3 j.val).toNat = j.val :=
    (BitVec.toNat_ofNat ..).trans (Nat.mod_eq_of_lt (j.isLt.trans (by decide)))
  obtain ⟨u, hu, htxt, hupend, huresult⟩ := run_writeText s c0 c1 c2 c3 c4 _
  have hdec := exec_dec_of_bad u.advance ((congrArg dec5 htxt).trans h)
  obtain ⟨st, t, ht, hpos, hbyte, hblock, hpend⟩ := run_command_readUnless_of_raise u rfl fail next hdec
  exact ⟨st, t, hu.trans ht, (congrArg BitVec.toNat hpos).trans hindex, hbyte, hpend.trans hupend,
    (congrArg Block.result hblock).trans huresult⟩

end

section
variable {d : Byte} (fail next : Word → HostProgram α)

/-- R81's and R82's accesses on a counter digit: its counter is read from RESULT. -/
theorem run_counter_of_digit (hd : isCounterDigit d = true) : ∃ n t,
    (HostProgram.command (.cntx d) (.readUnless .invalidCounter Reg.result.idx fail next)).run s = (next n).run t ∧
      n.toNat = counterOf d ∧ t.pending = s.pending ∧ t.block.word = s.block.word ∧ t.block.txt = s.block.txt := by
  have hcounter : (zext32 (BitVec.ofNat 8 (counterOf d))).toNat = counterOf d := by
    have hle := counterOf_le hd
    rw [zext32, BitVec.toNat_setWidth, BitVec.toNat_ofNat]
    omega
  obtain ⟨t, ht, hblock, hpend⟩ :=
    run_command_readUnless_of_ok s rfl (e := .invalidCounter) (idx := Reg.result.idx) fail next
      (exec_cntx_of_digit hd _) (by decide)
  exact ⟨_, t, ht, hcounter, hpend, (congrArg Block.word hblock).trans rfl,
    (congrArg Block.txt hblock).trans rfl⟩

/-- R81's and R82's accesses on any other character: it is read from STATUS. -/
theorem run_counter_of_not_digit (hd : ¬ isCounterDigit d = true) : ∃ st t,
    (HostProgram.command (.cntx d) (.readUnless .invalidCounter Reg.result.idx fail next)).run s = (fail st).run t ∧
      statusByte st = d ∧ t.pending = s.pending ∧ t.block.word = s.block.word ∧ t.block.txt = s.block.txt := by
  obtain ⟨st, t, ht, -, hbyte, hblock, hpend⟩ :=
    run_command_readUnless_of_raise s rfl fail next (exec_cntx_of_not_digit hd _)
  exact ⟨st, t, ht, hbyte, hpend, (congrArg Block.word hblock).trans rfl, (congrArg Block.txt hblock).trans rfl⟩

end

/-- The counter digit depends on the length modulo 4 alone, so the length's low 8 bits give the same (R66). -/
theorem counterDigitFor_toNat_ofNat (n : Nat) : counterDigitFor (BitVec.ofNat 8 n).toNat = counterDigitFor n := by
  rw [BitVec.toNat_ofNat, counterDigitFor, paddingFor, Nat.mod_mod_of_dvd n (by decide)]
  rfl

/-- R80's first accesses: the counter digit of the length is read from RESULT. -/
theorem run_counterDigit (n : Nat) (next : Word → HostProgram α) : ∃ t,
    (HostProgram.command (.cntg (BitVec.ofNat 8 n)) (.rd Reg.result.idx next)).run s =
      (next (zext32 (counterDigitFor n))).run t ∧ t.pending = s.pending := by
  rw [run_command s rfl _ (exec_cntg _ _), run_rd, counterDigitFor_toNat_ofNat]
  exact ⟨_, rfl, rfl⟩

end

end Sys2Proof.Machine
end

section
/-! SUPPORT. The obligations of the host procedures (spec/45_stream_modes.md R78 to R82). -/

namespace Sys2Proof.Machine

/-- R78's loop returns the encoded blocks. -/
theorem run_encodeLoop {p : List Byte} (h : p.length % 4 = 0) (s : State) : ∃ t,
    (encodeLoop p).run s = some (encodeBlocks p, t) ∧ t.pending = s.pending ∧ t.block.result = s.block.result ∧
      t.position = s.position + 7 * (p.length / 4) := by
  induction p, h using payloadInduction generalizing s with
  | nil => exact ⟨s, rfl, rfl, rfl, rfl⟩
  | block b0 b1 b2 b3 rest _ ih =>
    obtain ⟨t, ht, htpend, htresult, htpos⟩ := run_encodeBlock s (be32 b0 b1 b2 b3) fun chars =>
      (encodeLoop rest).bind fun out => .done (chars ++ out)
    obtain ⟨u, hu, hupend, huresult, hupos⟩ := ih t
    refine ⟨u, ?_, hupend.trans htpend, huresult.trans htresult, ?_⟩
    · rw [encodeLoop, ht, run_bind, hu]
      rfl
    · simp only [hupos, htpos, List.length_cons]
      omega

/-- Settles O50: the length check is the host's, and the loop encodes block by block. -/
theorem encodeStrictProcedureRefines : Obligations.EncodeStrictProcedureRefines := by
  intro p s
  by_cases h : p.length % 4 = 0
  · obtain ⟨t, ht, hpend, hresult, hpos⟩ := run_encodeLoop h s
    refine ⟨t, ?_, hpend, hresult, by rw [if_pos h, hpos]⟩
    rw [encodeStrictProcedure, if_neg (not_not.mpr h), run_bind, ht, encodeStrict_of_aligned h]
    rfl
  · refine ⟨s, ?_, rfl, rfl, by rw [if_neg h, Nat.add_zero]⟩
    rw [encodeStrictProcedure, if_pos h, run_done, encodeStrict_of_unaligned h]

/-- One block of R79's loop. -/
theorem decodeLoop_block (base : Nat) (c0 c1 c2 c3 c4 : Byte) (rest : List Byte) :
    decodeLoop base (c0 :: c1 :: c2 :: c3 :: c4 :: rest) = .writeText c0 c1 c2 c3 c4 (.command .dec
      (.readUnless .invalidCharacter Reg.word.idx
        (fun st => .done (.err .invalidCharacter (.char (base + (statusPos st).toNat) (statusByte st))))
        fun w => (decodeLoop (base + 5) rest).bind fun r => .done (r.map (bytesBe w ++ ·)))) := rfl

/-- R79's loop returns the decoded blocks, or the error of the first bad one. -/
theorem run_decodeLoop {text : List Byte} (h : text.length % 5 = 0) (base : Nat) (s : State) : ∃ t,
    (decodeLoop base text).run s = some (decodeBlocks base text, t) ∧ t.pending = s.pending ∧
      t.block.result = s.block.result := by
  induction text, h using textInduction generalizing base s with
  | nil => exact ⟨s, rfl, rfl, rfl⟩
  | block c0 c1 c2 c3 c4 rest _ ih =>
    rw [decodeLoop_block]
    cases h : dec5 (textOf c0 c1 c2 c3 c4) with
    | value w =>
      obtain ⟨t, ht, hpend, hresult⟩ := run_decodeBlock_of_value s _ _ h
      obtain ⟨u, hu, hupend, huresult⟩ := ih (base + 5) t
      refine ⟨u, ?_, hupend.trans hpend, huresult.trans hresult⟩
      rw [ht, run_bind, hu, decodeBlocks_of_value h]
      rfl
    | bad j c =>
      obtain ⟨st, t, ht, hpos, hbyte, hframe⟩ := run_decodeBlock_of_bad s _ _ h
      exact ⟨t, by rw [ht, run_done, hpos, hbyte, decodeBlocks_of_bad h], hframe⟩

/-- Settles O51: the length check is the host's, and the loop decodes block by block. -/
theorem decodeStrictProcedureRefines : Obligations.DecodeStrictProcedureRefines := by
  intro text s
  by_cases h : text.length % 5 = 0
  · rw [decodeStrictProcedure, if_neg (not_not.mpr h), decodeStrict_of_aligned h]
    exact run_decodeLoop h 0 s
  · refine ⟨s, ?_, rfl, rfl⟩
    rw [decodeStrictProcedure, if_pos h, run_done, decodeStrict_of_unaligned h]

/-- Settles O52: the counter of the length's digit is the length of the filler, and encode_strict's procedure encodes
the rest. -/
theorem encodePaddedProcedureRefines : Obligations.EncodePaddedProcedureRefines := by
  intro p s
  rw [encodePaddedProcedure]
  obtain ⟨t, ht, hpend⟩ := run_counterDigit s p.length _
  obtain ⟨u, hu, hupend, -⟩ := encodeStrictProcedureRefines (withFiller p) t
  refine ⟨u, ?_, hupend.trans hpend⟩
  rw [ht, lowByte_zext32, counterOf_counterDigitFor, ← withFiller, run_bind, hu]
  rfl

/-- R82's procedure on a text with a last character. -/
theorem extractCounterProcedure_concat (body : List Byte) (d : Byte) : extractCounterProcedure (body ++ [d]) =
    .command (.cntx d) (.readUnless .invalidCounter Reg.result.idx
      (fun st => .done (.err .invalidCounter (.counter (statusByte st)))) fun n => .done (.ok n.toNat)) := by
  rw [extractCounterProcedure, List.getLast?_concat]
  rfl

/-- Settles O54: CNTX accepts the last character, or STATUS reports it. -/
theorem extractCounterProcedureRefines : Obligations.ExtractCounterProcedureRefines := by
  intro text s
  obtain rfl | ⟨body, d, rfl⟩ := text.eq_nil_or_concat'
  · exact ⟨s, rfl, rfl, rfl, rfl⟩
  · rw [extractCounterProcedure_concat]
    by_cases hd : isCounterDigit d = true
    · obtain ⟨n, t, ht, hn, hframe⟩ := run_counter_of_digit s _ _ hd
      exact ⟨t, by rw [ht, run_done, hn, extractCounter_of_digit hd], hframe⟩
    · obtain ⟨st, t, ht, hst, hframe⟩ := run_counter_of_not_digit s _ _ hd
      exact ⟨t, by rw [ht, run_done, hst, extractCounter_of_not_digit hd], hframe⟩

/-- The rest of R81's procedure after the counter n is read: the length of the body, its decoding, and the filler. -/
def decodePaddedBody (body : List Byte) (n : Nat) : HostProgram (Result (List Byte)) :=
  if body.length % Config.blockChars ≠ 0 then .done (.err .invalidLength (.length body.length))
  else (decodeStrictProcedure body).bind fun r =>
    match r with
    | .err e detail => .done (.err e detail)
    | .ok decoded => .done (dropFiller n decoded)

/-- R81's procedure on a text with a last character. -/
theorem decodePaddedProcedure_concat (body : List Byte) (d : Byte) : decodePaddedProcedure (body ++ [d]) =
    .command (.cntx d) (.readUnless .invalidCounter Reg.result.idx
      (fun st => .done (.err .invalidCounter (.counter (statusByte st)))) fun n => decodePaddedBody body n.toNat) := by
  rw [decodePaddedProcedure, List.getLast?_concat, List.dropLast_concat]
  rfl

/-- The rest of R81's procedure after a counter digit returns decode_padded. -/
theorem run_decodePaddedBody {d : Byte} (hd : isCounterDigit d = true) (body : List Byte) (s : State) : ∃ t,
    (decodePaddedBody body (counterOf d)).run s = some (decodePadded (body ++ [d]), t) ∧ t.pending = s.pending := by
  by_cases h : body.length % 5 = 0
  · obtain ⟨t, ht, hpend, -⟩ := decodeStrictProcedureRefines body s
    refine ⟨t, ?_, hpend⟩
    rw [decodePaddedBody, if_neg (not_not.mpr h), run_bind, ht]
    cases hbody : decodeStrict body with
    | ok decoded =>
      rw [decodePadded_of_ok hd h hbody]
      rfl
    | err e detail =>
      rw [decodePadded_of_err hd h hbody]
      rfl
  · refine ⟨s, ?_, rfl⟩
    rw [decodePaddedBody, if_pos h, run_done, decodePadded_of_unaligned hd h]

/-- Settles O53: CNTX accepts the last character, and the body is checked and decoded, or STATUS reports it. -/
theorem decodePaddedProcedureRefines : Obligations.DecodePaddedProcedureRefines := by
  intro text s
  obtain rfl | ⟨body, d, rfl⟩ := text.eq_nil_or_concat'
  · exact ⟨s, rfl, rfl⟩
  · rw [decodePaddedProcedure_concat]
    by_cases hd : isCounterDigit d = true
    · obtain ⟨n, t, ht, hn, hpend, -⟩ := run_counter_of_digit s _ _ hd
      obtain ⟨u, hu, hupend⟩ := run_decodePaddedBody hd body t
      exact ⟨u, by rw [ht, hn, hu], hupend.trans hpend⟩
    · obtain ⟨st, t, ht, hst, hpend, -⟩ := run_counter_of_not_digit s _ _ hd
      exact ⟨t, by rw [ht, run_done, hst, decodePadded_of_not_digit hd], hpend⟩

end Sys2Proof.Machine
end

section
/-! SUPPORT. One step at one place of a platform (spec/60_exceptions.md R98). -/

namespace Sys2Proof.Machine

/-- A platform goes on at place k exactly when the block there goes on, and then that block alone is replaced (R98). -/
theorem Platform.stepAt_eq_next_iff {p q : Platform} {k : Nat} :
    p.stepAt k = some (.next q) ↔ ∃ s t, p[k]? = some s ∧ step s = .next t ∧ p.set k t = q := by
  unfold Platform.stepAt
  cases p[k]? with
  | none => simp
  | some s => cases h : step s <;> simp [h]

end Sys2Proof.Machine
end

section
/-! SUPPORT. Which errors each operation can end with (spec/60_exceptions.md R89). -/

namespace Sys2Proof.Machine

/-- encode_strict fails on a length alone (R89). -/
theorem eq_invalidLength_of_encodeStrict {p : List Byte} {e : ErrorName} {d : Detail} (h : encodeStrict p = .err e d) :
    e = .invalidLength ∧ d = .length p.length := by
  by_cases hp : p.length % 4 = 0
  · cases (encodeStrict_of_aligned hp).symm.trans h
  · cases (encodeStrict_of_unaligned hp).symm.trans h
    exact ⟨rfl, rfl⟩

/-- decode_strict fails on a length or on a character (R89). -/
theorem error_of_decodeStrict {t : List Byte} {e : ErrorName} {d : Detail} (h : decodeStrict t = .err e d) :
    (e = .invalidLength ∧ d = .length t.length) ∨ e = .invalidCharacter := by
  obtain ⟨-, herr⟩ | ⟨-, -, out, hok, -⟩ | ⟨-, p, c, -, herr⟩ := decodeStrict_cases t
  · cases herr.symm.trans h
    exact .inl ⟨rfl, rfl⟩
  · cases hok.symm.trans h
  · cases herr.symm.trans h
    exact .inr rfl

/-- decode_padded fails with any of the four stream errors and no other (R89). -/
theorem error_of_decodePadded {t : List Byte} {e : ErrorName} {d : Detail} (h : decodePadded t = .err e d) :
    e = .invalidLength ∨ e = .invalidCharacter ∨ e = .invalidCounter ∨ e = .invalidPadding := by
  obtain rfl | ⟨body, c, rfl⟩ := t.eq_nil_or_concat'
  · cases h
    exact .inr (.inr (.inl rfl))
  · obtain hr | hr | ⟨p, b, hr⟩ | ⟨-, -, -, hr⟩ | ⟨-, -, -, out, hr, -⟩ := decodePadded_cases body c
    · cases hr.symm.trans h
      exact .inr (.inr (.inl rfl))
    · cases hr.symm.trans h
      exact .inl rfl
    · cases hr.symm.trans h
      exact .inr (.inl rfl)
    · cases hr.symm.trans h
      exact .inr (.inr (.inr rfl))
    · cases hr.symm.trans h

/-- extract_counter fails on the counter alone (R89). -/
theorem eq_invalidCounter_of_extractCounter {t : List Byte} {e : ErrorName} {d : Detail}
    (h : extractCounter t = .err e d) : e = .invalidCounter := by
  obtain rfl | ⟨body, c, rfl⟩ := t.eq_nil_or_concat'
  · cases h
    rfl
  · by_cases hc : isCounterDigit c = true
    · cases (extractCounter_of_digit hc).symm.trans h
    · cases (extractCounter_of_not_digit hc).symm.trans h
      rfl

/-- R89's table of the commands: the errors a command itself can raise. -/
inductive CanFail : Instr → ErrorName → Prop where
  | dec : CanFail .dec .invalidCharacter
  | inv (imm : Byte) : CanFail (.inv imm) .invalidCharacter
  | cntx (imm : Byte) : CanFail (.cntx imm) .invalidCounter
  | fwd {imm : Byte} (h : 85 ≤ imm.toNat) : CanFail (.fwd imm) .illegalCommand

/-- A command ends with ERR = 0 or raises an error of R89's table. -/
theorem exec_succeeds_or_fails (i : Instr) (s : State) :
    (∃ t, exec i s = .next t ∧ t.block.status.err = 0#4) ∨
    (∃ e pos byte, CanFail i e ∧ exec i s = raise e pos byte s) := by
  cases i with
  | nop => exact .inl ⟨_, rfl, rfl⟩
  | enc => exact .inl ⟨_, exec_enc s, rfl⟩
  | dec =>
    cases h : firstInvalid s.block.txt with
    | none => exact .inl ⟨_, exec_dec_of_validText (firstInvalid_eq_none_iff_validText.mp h), rfl⟩
    | some j => exact .inr ⟨_, _, _, .dec, exec_dec_of_some h⟩
  | fwd imm =>
    obtain h | h := Nat.lt_or_ge imm.toNat 85
    · exact .inl ⟨_, exec_fwd_of_lt h s, rfl⟩
    · exact .inr ⟨_, _, _, .fwd h, exec_fwd_of_le h s⟩
  | inv imm =>
    by_cases h : ∃ i, imm = fwdRom i
    · obtain ⟨i, rfl⟩ := h
      exact .inl ⟨_, exec_inv_fwdRom i s, rfl⟩
    · exact .inr ⟨_, _, _, .inv imm, exec_inv_of_ne (not_exists.mp h) s⟩
  | cntx imm =>
    by_cases h : isCounterDigit imm = true
    · exact .inl ⟨_, exec_cntx_of_digit h s, rfl⟩
    · exact .inr ⟨_, _, _, .cntx imm, exec_cntx_of_not_digit h s⟩
  | cntg imm => exact .inl ⟨_, exec_cntg imm s, rfl⟩
  | clrs => exact .inl ⟨_, rfl, rfl⟩

/-- A command that leaves ERR nonzero has left the code of an error of R89's table. -/
theorem canFail_of_exec {i : Instr} {s t : State} (h : exec i s = .next t) (herr : t.block.status.err ≠ 0#4) :
    ∃ e, CanFail i e ∧ t.block.status.err = e.code := by
  obtain ⟨u, hu, hzero⟩ | ⟨e, pos, byte, hfail, hraise⟩ := exec_succeeds_or_fails i s
  · cases hu.symm.trans h
    exact absurd hzero herr
  · obtain rfl := (raise_eq_next_iff ..).mp (hraise.symm.trans h)
    exact ⟨e, hfail, rfl⟩

end Sys2Proof.Machine
end

section
/-! SUPPORT. The obligations of the errors and of the instances (spec/60_exceptions.md R89 to R98). -/

namespace Sys2Proof.Machine

/-- Settles O32, by the three kinds of effect a word has; only CLRS's is a success that does not keep ANYERR. -/
theorem failingCommandWritesOnlyStatus : Obligations.FailingCommandWritesOnlyStatus := by
  intro cmd s
  obtain ⟨b, f, hb, h⟩ := command_effect cmd s
  refine ⟨_, h s.block.status, ⟨rfl, rfl, rfl⟩, ?_⟩
  generalize hc : decode cmd = c at hb
  cases hb with
  | succeeds => exact .inr ⟨rfl, rfl, rfl, fun _ => rfl⟩
  | clears => exact .inr ⟨rfl, rfl, rfl, fun hne => absurd (eq_encode_of_decode hc) hne⟩
  | fails he => exact .inl ⟨ErrorName.code_ne_zero he, rfl, rfl⟩

/-- Settles O41: a step replaces the block at its own place by what that block steps to, and replacements at two places
commute. -/
theorem instancesAreIsolated : Obligations.InstancesAreIsolated := by
  refine ⟨fun p q k hq => ?_, fun p p' q k hk hq => ?_, fun p q r j k hjk hq hr => ?_⟩
  · obtain ⟨s, t, -, -, rfl⟩ := Platform.stepAt_eq_next_iff.mp hq
    exact ⟨List.length_set, fun j hj => List.getElem?_set_ne hj.symm⟩
  · obtain ⟨s, t, hs, ht, rfl⟩ := Platform.stepAt_eq_next_iff.mp hq
    refine ⟨_, Platform.stepAt_eq_next_iff.mpr ⟨s, t, hk ▸ hs, ht, rfl⟩, ?_⟩
    rw [List.getElem?_set_self', List.getElem?_set_self', hk]
  · obtain ⟨s, t, hs, ht, rfl⟩ := Platform.stepAt_eq_next_iff.mp hq
    obtain ⟨u, v, hu, hv, rfl⟩ := Platform.stepAt_eq_next_iff.mp hr
    rw [List.getElem?_set_ne hjk] at hu
    refine ⟨_, Platform.stepAt_eq_next_iff.mpr ⟨u, v, hu, hv, rfl⟩, Platform.stepAt_eq_next_iff.mpr ⟨s, t, ?_, ht, ?_⟩⟩
    · rwa [List.getElem?_set_ne hjk.symm]
    · exact List.set_comm _ _ hjk.symm

/-- Settles O48: the errors of each stream operation, those of a command by R89's table, and an illegal word's. -/
theorem failuresOfEachOperation : Obligations.FailuresOfEachOperation := by
  refine ⟨fun _ _ _ => eq_invalidLength_of_encodeStrict, fun _ _ _ => error_of_decodeStrict,
    fun p => ⟨_, encodePadded_eq p⟩, fun _ _ _ => error_of_decodePadded,
    fun _ _ _ => eq_invalidCounter_of_extractCounter, fun i s t h herr => ?_,
    fun _ _ s hc => ⟨_, command_of_illegal hc s, rfl⟩⟩
  obtain ⟨e, hfail, hcode⟩ := canFail_of_exec h herr
  cases hfail with
  | dec => exact .inl ⟨.inl rfl, hcode⟩
  | inv imm => exact .inl ⟨.inr ⟨imm, rfl⟩, hcode⟩
  | cntx imm => exact .inr (.inl ⟨⟨imm, rfl⟩, hcode⟩)
  | fwd hle => exact .inr (.inr ⟨⟨_, rfl, hle⟩, hcode⟩)

end Sys2Proof.Machine
end

section
/-! SUPPORT. The state after reset: what it reads as, and what ENC and DEC do straight after it
(spec/70_reset_and_hazards.md R100, R103). -/

namespace Sys2Proof.Machine

/-- A write of STATUS leaves WORD, TXT and RESULT. -/
theorem sameData_setStatus (s : State) (st : Status) : sameData s (s.setStatus st) := ⟨rfl, fun _ => rfl, rfl⟩

/-- After reset every index of the window reads 0 (R100). -/
theorem regRead_reset (idx : BitVec 4) : regRead idx Block.reset = 0x00000000#32 := by
  obtain ⟨-, hr⟩ | ⟨-, hr⟩ | ⟨-, hr⟩ | ⟨k, -, hr⟩ | ⟨-, hr⟩ := regRead_cases idx
  · exact (hr _).trans (toWord_noError false)
  · exact hr _
  · exact hr _
  · have htxt : ∀ j, Block.reset.txt j = 0x00#8 := by decide
    rw [hr, htxt]
    rfl
  · exact hr _

/-- The numeral of 0, which ENC writes straight after reset, is `00000` (R103). -/
theorem numeralText_zero : numeralText 0 = textOf 0x30#8 0x30#8 0x30#8 0x30#8 0x30#8 :=
  numeralText_eq_textOf rfl rfl rfl rfl rfl

/-- The reset value 0x00 of TXT0 is no alphabet character, so DEC straight after reset stops at it (R103). -/
theorem firstInvalid_reset : firstInvalid State.reset.block.txt = some 0 :=
  (firstInvalid_eq_some_iff _ 0).mpr ⟨by decide, fun k hk => absurd hk k.val.not_lt_zero⟩

end Sys2Proof.Machine
end

section
/-! SUPPORT. The obligations of the reset. -/

namespace Sys2Proof.Machine

/-- Settles O14: the reset is one served event, and ENC and DEC after it by the numeral of 0 and the first invalid
character of a text of zeros; CLRS writes STATUS alone. -/
theorem resetSetsEveryRegister : Obligations.ResetSetsEveryRegister := by
  refine ⟨fun _ _ h => step_of_pending h, rfl, regRead_reset, ?_, exec_dec_of_some firstInvalid_reset,
    fun s => ⟨_, rfl, sameData_setStatus s Status.cleared⟩⟩
  have hword : State.reset.block.word.toNat = 0 := rfl
  rw [exec_enc, hword, numeralText_zero]
  rfl

/-- Settles O38: STATUS after reset records no error, with POS and BYTE 0, and RESULT is a digit. -/
theorem resetMeetsInvariant : Obligations.ResetMeetsInvariant :=
  ⟨by decide, legalResult_of_lt (by decide)⟩

end Sys2Proof.Machine
end
